-- ==== Sys2Proof/Word.lean ====
section
/-! DEFINITION. The 32-bit bus and command word, and the index of an operand register. -/

namespace Sys2Proof

/-- A bus word, and a command word (20_memory.md R61, R63; 30_encoding.md R90). -/
abbrev Word := BitVec 32

/-- The index of one of V0..V15: every 4-bit value names a register (10_state.md R32). -/
abbrev Reg := Fin 16

end Sys2Proof
end

