-- ==== Sys2Proof/Syntax.lean ====
section
/-! DEFINITION. The six commands (30_encoding.md R99), with the operands their formats use (R91 to R96). -/

namespace Sys2Proof

/-- One command. Operands stand in the order RD, RA, RB, RC and then IMM8 or RY, whichever the format has. -/
inductive Instr where
  /-- MRROUND vD, vN, vW (format MR, R92): one Miller-Rabin round. -/
  | mrround (rd ra rb : Reg)
  /-- PRIMETEST vD, vN, #k (format P, R93): the whole test with `k` rounds. -/
  | primetest (rd ra : Reg) (k : BitVec 8)
  /-- MODPOW vD, vB, vE, vM (format R3, R94). -/
  | modpow (rd ra rb rc : Reg)
  /-- MODMUL vD, vA, vB, vM (format R3, R94). -/
  | modmul (rd ra rb rc : Reg)
  /-- EGCD vG, vX, vY, vA, vB (format E, R95): `rd` receives g, `rc` receives |x|, `ry` receives |y|. -/
  | egcd (rd ra rb rc ry : Reg)
  /-- MODINV vD, vA, vN (format R2, R96). -/
  | modinv (rd ra rc : Reg)
deriving DecidableEq, Repr

end Sys2Proof
end

