-- ==== Sys2Proof/WellFormed.lean ====
section
/-! DEFINITION. Which commands an assembler may form (30_encoding.md R98, R103). Register numbers and the round
count are in range by their types; the one relation left is that EGCD's three destinations differ. Beside it, the
registers a command names. -/

namespace Sys2Proof

/-- EGCD's RD, RC and RY differ pairwise (30_encoding.md R95, R98). -/
def distinctDests (rd rc ry : Reg) : Bool :=
  rd != rc && rd != ry && rc != ry

/-- The command has a command word. -/
def Instr.wf : Instr → Bool
  | .mrround _ _ _ => true
  | .primetest _ _ _ => true
  | .modpow _ _ _ _ => true
  | .modmul _ _ _ _ => true
  | .egcd rd _ _ rc ry => distinctDests rd rc ry
  | .modinv _ _ _ => true

/-- The source registers of a command (30_encoding.md R103). -/
def Instr.sources : Instr → List Reg
  | .mrround _ ra rb => [ra, rb]
  | .primetest _ ra _ => [ra]
  | .modpow _ ra rb rc => [ra, rb, rc]
  | .modmul _ ra rb rc => [ra, rb, rc]
  | .egcd _ ra rb _ _ => [ra, rb]
  | .modinv _ ra rc => [ra, rc]

/-- The destination registers of a command (30_encoding.md R103). -/
def Instr.dests : Instr → List Reg
  | .mrround rd _ _ => [rd]
  | .primetest rd _ _ => [rd]
  | .modpow rd _ _ _ => [rd]
  | .modmul rd _ _ _ => [rd]
  | .egcd rd _ _ rc ry => [rd, rc, ry]
  | .modinv rd _ _ => [rd]

end Sys2Proof
end

