-- ==== Sys2Proof/Decode.lean ====
section
/-! DEFINITION. The command word: its fields, the total decoder, the encoder, and the opcode table as data
(30_encoding.md R90 to R100). -/

namespace Sys2Proof

/-- OPC, bits 7:0 (R90). -/
def fieldOpc (w : Word) : BitVec 8 := w.extractLsb' 0 8

/-- RD, bits 11:8 (R90). -/
def fieldRd (w : Word) : Reg := (w.extractLsb' 8 4).toFin

/-- RA, bits 15:12 (R90). -/
def fieldRa (w : Word) : Reg := (w.extractLsb' 12 4).toFin

/-- RB, bits 19:16 (R90). -/
def fieldRb (w : Word) : Reg := (w.extractLsb' 16 4).toFin

/-- RC, bits 23:20 (R90). -/
def fieldRc (w : Word) : Reg := (w.extractLsb' 20 4).toFin

/-- RY = IMM8[3:0], bits 27:24 (R95). -/
def fieldRy (w : Word) : Reg := (w.extractLsb' 24 4).toFin

/-- IMM8[7:4], bits 31:28, which EGCD requires to be 0 (R95). -/
def fieldImmHigh (w : Word) : BitVec 4 := w.extractLsb' 28 4

/-- IMM8, bits 31:24 (R90, R97: zero-extended, no scaling). -/
def fieldImm (w : Word) : BitVec 8 := w.extractLsb' 24 8

/-- Why a word is ILLEGAL (R100). The machine acts alike on all three (60_exceptions.md R213). -/
inductive Illegal where
  /-- OPC is none of 0x01..0x06. -/
  | reservedOpcode
  /-- A field that the command's format does not use is not zero. -/
  | nonzeroField
  /-- EGCD names one register for two of its destinations. -/
  | sameDestinations
deriving DecidableEq, Repr

/-- What a command word means: one legal command, or ILLEGAL (R98). -/
inductive Decoded where
  | legal (i : Instr)
  | illegal (why : Illegal)
deriving DecidableEq, Repr

/-- A command whose must-be-zero fields are `ok`. -/
def whenZero (ok : Bool) (i : Instr) : Decoded :=
  if ok then .legal i else .illegal .nonzeroField

/-- `decode` of R98, on all 32-bit words. -/
def decode (w : Word) : Decoded :=
  match (fieldOpc w).toNat with
  | 1 => whenZero (fieldRc w == 0 && fieldImm w == 0) (.mrround (fieldRd w) (fieldRa w) (fieldRb w))
  | 2 => whenZero (fieldRb w == 0 && fieldRc w == 0) (.primetest (fieldRd w) (fieldRa w) (fieldImm w))
  | 3 => whenZero (fieldImm w == 0) (.modpow (fieldRd w) (fieldRa w) (fieldRb w) (fieldRc w))
  | 4 => whenZero (fieldImm w == 0) (.modmul (fieldRd w) (fieldRa w) (fieldRb w) (fieldRc w))
  | 5 =>
    if fieldImmHigh w == 0 then
      if distinctDests (fieldRd w) (fieldRc w) (fieldRy w) then
        .legal (.egcd (fieldRd w) (fieldRa w) (fieldRb w) (fieldRc w) (fieldRy w))
      else .illegal .sameDestinations
    else .illegal .nonzeroField
  | 6 => whenZero (fieldRb w == 0 && fieldImm w == 0) (.modinv (fieldRd w) (fieldRa w) (fieldRc w))
  | _ => .illegal .reservedOpcode

/-- The command of a legal word. -/
def Decoded.instr? : Decoded → Option Instr
  | .legal i => some i
  | .illegal _ => none

/-- The host's numbering of a table row's bits is the command word's own: bit 0 is the least significant bit of
the one 32-bit word (R61, R90). -/
def tableWord (nbits w : Nat) : Word := BitVec.ofNat 32 (w % 2 ^ nbits)

/-- What the decoder reads from an instruction of the opcode table whose bits are `w`. -/
def decodeTableWord (nbits w : Nat) : Option Instr := (decode (tableWord nbits w)).instr?

/-- A register index as a 4-bit field. -/
def nibble (r : Reg) : BitVec 4 := BitVec.ofFin r

/-- The six fields of a command word put side by side, bit 31 on the left (R90). -/
def assembleFields (imm : BitVec 8) (rc rb ra rd : Reg) (opc : BitVec 8) : Word :=
  imm ++ nibble rc ++ nibble rb ++ nibble ra ++ nibble rd ++ opc

/-- The word of a command (R92 to R96, R103). -/
def encode : Instr → Word
  | .mrround rd ra rb => assembleFields 0 0 rb ra rd 0x01
  | .primetest rd ra k => assembleFields k 0 0 ra rd 0x02
  | .modpow rd ra rb rc => assembleFields 0 rc rb ra rd 0x03
  | .modmul rd ra rb rc => assembleFields 0 rc rb ra rd 0x04
  | .egcd rd ra rb rc ry => assembleFields (0#4 ++ nibble ry) rc rb ra rd 0x05
  | .modinv rd ra rc => assembleFields 0 rc 0 ra rd 0x06

/-- PRIMETEST vD, vN without a count (R104): five rounds. -/
def primetestDefault (rd ra : Reg) : Instr := .primetest rd ra 5

/-- MODSQR vD, vA, vM (R104). -/
def modsqr (rd ra rc : Reg) : Instr := .modmul rd ra ra rc

/-- One row of the opcode map of R99. -/
structure OpcodeRow where
  mnemonic : String
  pattern : Word
  mask : Word
deriving DecidableEq, Repr

/-- The opcode map (R99). -/
def opcodeMap : List OpcodeRow :=
  [ ⟨"MRROUND", 0x00000001, 0xFFF000FF⟩
  , ⟨"PRIMETEST", 0x00000002, 0x00FF00FF⟩
  , ⟨"MODPOW", 0x00000003, 0xFF0000FF⟩
  , ⟨"MODMUL", 0x00000004, 0xFF0000FF⟩
  , ⟨"EGCD", 0x00000005, 0xF00000FF⟩
  , ⟨"MODINV", 0x00000006, 0xFF0F00FF⟩ ]

/-- A word selects a row when its masked bits are the row's pattern (R99). -/
def OpcodeRow.selects (r : OpcodeRow) (w : Word) : Bool := w &&& r.mask == r.pattern

/-- The row of a command (R99). -/
def Instr.mnemonic : Instr → String
  | .mrround _ _ _ => "MRROUND"
  | .primetest _ _ _ => "PRIMETEST"
  | .modpow _ _ _ _ => "MODPOW"
  | .modmul _ _ _ _ => "MODMUL"
  | .egcd _ _ _ _ _ => "EGCD"
  | .modinv _ _ _ => "MODINV"

end Sys2Proof
end

