-- ==== Sys2Proof/Machine/Arith.lean ====
section
/-! DEFINITION. What the commands compute, on unbounded integers (00_scope.md R9): the pseudocode of
00_scope.md R11, 41_modexp.md R150, 40_primality.md R120, R131 and 42_gcd_inverse.md R180, R191. Loops recurse
on fuel that is always enough. -/

namespace Sys2Proof.Machine

/-- The loop of `modpow` (R150): `r` accumulates, `p` is the current square, `e` the remaining exponent. -/
def modpowLoop : Nat → Nat → Nat → Nat → Nat → Nat
  | 0, r, _, _, _ => r
  | fuel + 1, r, p, e, m =>
    if e = 0 then r
    else modpowLoop fuel (if e % 2 = 1 then r * p % m else r) (p * p % m) (e / 2) m

/-- `modpow(b, e, m)` (R150), for m ≥ 1. -/
def modpow (b e m : Nat) : Nat :=
  if m = 1 then 0 else modpowLoop (e.log2 + 1) 1 (b % m) e m

/-- The count of factors 2 of `m`, at most the fuel. -/
def v2Loop : Nat → Nat → Nat
  | 0, _ => 0
  | fuel + 1, m => if m % 2 = 1 then 0 else v2Loop fuel (m / 2) + 1

/-- `v2(m)` (R11), for m ≥ 1: the largest s with 2^s dividing m. -/
def v2 (m : Nat) : Nat := v2Loop m.log2 m

/-- The squarings of a round (R120): up to `k` more, looking for n - 1, stopping at a nontrivial root of 1. -/
def mrSquarings : Nat → Nat → Nat → Bool
  | 0, _, _ => false
  | k + 1, x, n =>
    if x * x % n = n - 1 then true
    else if x * x % n = 1 then false
    else mrSquarings k (x * x % n) n

/-- The inputs on which a round is defined (R120, R121): odd(n), n ≥ 5, 2 ≤ a ≤ n - 2. -/
def mrInRange (n a : Nat) : Bool := n % 2 == 1 && decide (5 ≤ n) && decide (2 ≤ a) && decide (a ≤ n - 2)

/-- `mr_round(n, a)` (R120): true when the round passes. -/
def mrRound (n a : Nat) : Bool :=
  let s := v2 (n - 1)
  let d := (n - 1) / 2 ^ s
  let x := modpow a d n
  if x = 1 ∨ x = n - 1 then true else mrSquarings (s - 1) x n

/-- `prime_trivial(n)` (R131): the verdicts that need no witness. -/
def primeTrivial (n : Nat) : Option Bool :=
  if n ≤ 1 then some false
  else if n = 2 ∨ n = 3 then some true
  else if n % 2 = 1 then none
  else some false

/-- PRIMETEST needs a witness (R132): `prime_trivial` decides nothing, and there is a round to run. -/
def needsWitness (n : Nat) (k : BitVec 8) : Bool := (primeTrivial n).isNone && k != 0

/-- The triple (g, x, y) of `egcd` (R180). -/
structure Bezout where
  g : Nat
  x : Int
  y : Int
deriving DecidableEq, Repr

/-- The recursion of `egcd` (R180). -/
def egcdLoop : Nat → Nat → Nat → Bezout
  | 0, _, b => ⟨b, 0, 1⟩
  | fuel + 1, a, b =>
    if a = 0 then ⟨b, 0, 1⟩
    else
      let r := egcdLoop fuel (b % a) a
      ⟨r.g, r.y - (b / a : Nat) * r.x, r.x⟩

/-- `egcd(a, b)` (R180). The first argument falls at every call, so `a` calls after the first are enough. -/
def egcd (a b : Nat) : Bezout := egcdLoop (a + 1) a b

/-- `modinv(a, n)` (R191), for n ≥ 1: none is INVUNDEF. -/
def modinv (a n : Nat) : Option Nat :=
  let r := egcd a n
  if r.g ≠ 1 then none else some (r.x % (n : Int)).toNat

end Sys2Proof.Machine
end

