-- ==== Sys2Proof/Config.lean ====
section
/-! DEFINITION. What the spec leaves to an implementation or a platform, and the free values. None of the
opaque constants has a body, so no proof can rest on what they are. -/

namespace Sys2Proof.Config

/-- Free (log entry 3): picks this implementation's OPW out of the range R4 allows. -/
opaque opwChoice : Nat

/-- OPW / 32 of this implementation: some number in 2..256, since 64 ≤ OPW ≤ 8192 (00_scope.md R4). -/
def opwWords : Nat := opwChoice % 255 + 2

/-- Free (log entry 3): picks the platform's BASE. -/
opaque baseChoice : Nat

/-- BASE of this platform, aligned to 4 KiB (00_scope.md R5). -/
def base : Nat := baseChoice * 4096

/-- Free (log entry 2): the d-th word drawn where a program reads a word of a V register that is not
fully written since reset (70_reset_and_hazards.md R251: "a value drawn afresh for each word and each read"). -/
opaque freeWord : Nat → Word

end Sys2Proof.Config
end

