-- ==== Sys2Proof/Machine/State.lean ====
section
/-! DEFINITION. Every piece of state of the block (10_state.md section 9), the inputs of the agents around it,
the reasons a step can stop, and the state after reset. -/

namespace Sys2Proof.Machine

open Sys2Proof

/-- The error codes of STATUS.ECODE (60_exceptions.md R210). Codes 5..15 are never produced, so they are no
constructors. -/
inductive ErrCode where
  | none | illegal | modZero | invUndef | mrRange
deriving DecidableEq, Repr

/-- STATUS but for BUSY, which is S.valid (10_state.md R23 to R29, R30). -/
structure Status where
  err : Bool
  rflag : Bool
  xneg : Bool
  yneg : Bool
  ecode : ErrCode
  lastop : BitVec 8
deriving DecidableEq, Repr

/-- EVENTS: the two sticky bits (10_state.md R34). -/
structure Events where
  done : Bool
  ovr : Bool
deriving DecidableEq, Repr

/-- IRQEN (10_state.md R37). -/
structure IrqEn where
  doneIe : Bool
  ovrIe : Bool
deriving DecidableEq, Repr

/-- S, the in-flight command record (10_state.md R30). -/
structure Job where
  valid : Bool
  opc : BitVec 8
  rd : Reg
  ra : Reg
  rb : Reg
  rc : Reg
  ry : Reg
  imm : BitVec 8
  a : Nat
  b : Nat
  c : Nat
  doneRounds : BitVec 8
  wreq : Bool
deriving DecidableEq, Repr

/-- The parameters of an implementation and its platform (00_scope.md R4, R5): OPW / 32 and BASE. No step
changes them. -/
structure Params where
  opwWords : Nat
  base : Nat
deriving DecidableEq, Repr

/-- One access of a bus master: a platform address and the byte lanes it enables (92_eei_decisions.md D44). -/
structure Access where
  addr : Nat
  lanes : BitVec 4
deriving DecidableEq, Repr

/-- What an agent does next (00_scope.md R6). -/
inductive Input where
  /-- A Host reads. -/
  | read (acc : Access)
  /-- A Host writes `w`. -/
  | write (acc : Access) (w : Word)
  /-- The Engine takes its enabled step that needs no draw, if it has one. -/
  | engine
  /-- The Entropy source answers the outstanding request with the draw `w`, and the Engine takes the round step
  that consumes it (40_primality.md R133). -/
  | answer (w : Nat)
  /-- The Entropy source delivers a witness for a request that reset withdrew
  (70_reset_and_hazards.md R250). -/
  | staleAnswer (w : Nat)
  /-- The reset input is asserted (70_reset_and_hazards.md R250). -/
  | reset
deriving DecidableEq, Repr

/-- Why a step stops with a fault. -/
inductive Fault where
  /-- Raised by the Engine's turn (`engineStep`) when the in-flight record holds an opcode that is none of the
  six. No acceptance leaves such a record (R98, R212), so no run meets it. Safe: the model stops. -/
  | corruptRecord
deriving DecidableEq, Repr

/-- Why a step is refused. -/
inductive Refusal where
  /-- Raised by a refused arm of `exec`, for an instruction that has no meaning yet. Safe: the model stops. -/
  | notModelled (mnemonic : String)
  /-- Raised by a bus access outside the 20 KiB region: what it does is the platform's business
  (20_memory.md R70). Safe: the model stops. -/
  | outsideRegion
  /-- Raised by an answer of the Entropy source outside [2, n - 2]: the domain of draws excludes it
  (93_implementation_defined.md U16). Safe: the model stops. -/
  | witnessOutOfRange
deriving DecidableEq, Repr

/-- The machine. -/
structure State where
  /-- OPW / 32 and BASE. -/
  par : Params
  /-- V0..V15 as unsigned integers (10_state.md R32). -/
  v : Vector Nat 16
  /-- Bit i of entry k: word i of V[k] has been written since reset (70_reset_and_hazards.md R251). -/
  written : Vector (BitVec 256) 16
  /-- S (10_state.md R30). `job.valid` is STATUS.BUSY. -/
  job : Job
  /-- STATUS but for BUSY. -/
  status : Status
  /-- EVENTS. -/
  events : Events
  /-- IRQEN. -/
  irqen : IrqEn
  /-- The read data of the slave port: what the last bus read returned (92_eei_decisions.md D44). -/
  rdata : Word
  /-- The model's own: the draw at the Entropy port during the step that consumes it. -/
  witness : Option Nat
  /-- The model's own: how many free words have been taken (log entry 2). -/
  draws : Nat
  /-- The model's own: what the agents do next, oldest first (log entry 4). -/
  inputs : List Input
deriving DecidableEq, Repr

/-- S with no command in flight and its other fields discarded (log entry 8). -/
def Job.idle : Job :=
  { valid := false, opc := 0, rd := 0, ra := 0, rb := 0, rc := 0, ry := 0, imm := 0,
    a := 0, b := 0, c := 0, doneRounds := 0, wreq := false }

/-- The block with parameters `p` right after reset (70_reset_and_hazards.md R250, R251): STATUS, EVENTS and IRQEN
are 0, nothing is in flight, and no word of a V register is written. The stored V values are named by log
entry 1. -/
def State.resetWith (p : Params) : State :=
  { par := p
    v := Vector.replicate 16 0
    written := Vector.replicate 16 0
    job := Job.idle
    status := { err := false, rflag := false, xneg := false, yneg := false, ecode := .none, lastop := 0 }
    events := { done := false, ovr := false }
    irqen := { doneIe := false, ovrIe := false }
    rdata := 0
    witness := none
    draws := 0
    inputs := [] }

/-- The machine right after reset, for the implementation's own OPW and the platform's own BASE. -/
def State.reset : State := State.resetWith { opwWords := Config.opwWords, base := Config.base }

end Sys2Proof.Machine
end

