-- ==== Sys2Proof/Machine/Flags.lean ====
section
/-! DEFINITION. The words the identification and control registers read as, and the interrupt output
(10_state.md R21 to R38). -/

namespace Sys2Proof.Machine

open Sys2Proof

/-- STATUS.BUSY: a command is in flight (10_state.md R24, R30). -/
def State.busy (s : State) : Bool := s.job.valid

/-- One flag as a bit. -/
def flagBit (b : Bool) : BitVec 1 := BitVec.ofBool b

/-- The number of an error code (60_exceptions.md R210). -/
def ErrCode.code : ErrCode → BitVec 4
  | .none => 0
  | .illegal => 1
  | .modZero => 2
  | .invUndef => 3
  | .mrRange => 4

/-- ID (10_state.md R21). -/
def idWord : Word := 0x4D455850

/-- PARAM: VERSION, NREG, OPW_WORDS (10_state.md R22). -/
def State.paramWord (s : State) : Word := 0x01#8 ++ 0x10#8 ++ BitVec.ofNat 16 s.par.opwWords

/-- STATUS as read (10_state.md R23; 20_memory.md R64). -/
def State.statusWord (s : State) : Word :=
  0#8 ++ s.status.lastop ++ 0#4 ++ s.status.ecode.code ++ 0#3 ++ flagBit s.status.yneg ++ flagBit s.status.xneg ++
    flagBit s.status.rflag ++ flagBit s.status.err ++ flagBit s.busy

/-- EVENTS as read (20_memory.md R64). -/
def State.eventsWord (s : State) : Word := 0#30 ++ flagBit s.events.ovr ++ flagBit s.events.done

/-- IRQEN as read (20_memory.md R64). -/
def State.irqenWord (s : State) : Word := 0#30 ++ flagBit s.irqen.ovrIe ++ flagBit s.irqen.doneIe

/-- The `irq` output (10_state.md R38). -/
def State.irq (s : State) : Bool := s.events.done && s.irqen.doneIe || s.events.ovr && s.irqen.ovrIe

/-- A write of `w` to EVENTS clears the bits that `w` sets (10_state.md R34). -/
def Events.w1c (e : Events) (w : Word) : Events :=
  { done := e.done && !w.getLsbD 0, ovr := e.ovr && !w.getLsbD 1 }

/-- A write of `w` to IRQEN (10_state.md R37). -/
def irqenOf (w : Word) : IrqEn := { doneIe := w.getLsbD 0, ovrIe := w.getLsbD 1 }

/-- STATUS as acceptance of a word with this opcode leaves it: no flag and the error code `code`
(60_exceptions.md R212, R213). -/
def Status.accepted (opc : BitVec 8) (code : ErrCode) : Status :=
  { err := code != .none, rflag := false, xneg := false, yneg := false, ecode := code, lastop := opc }

/-- STATUS after a successful completion (60_exceptions.md R215): LASTOP stays. -/
def Status.completedOk (t : Status) (rflag xneg yneg : Bool) : Status :=
  { t with rflag := rflag, xneg := xneg, yneg := yneg, err := false, ecode := .none }

/-- STATUS after a completion in error (60_exceptions.md R216): LASTOP stays. -/
def Status.completedError (t : Status) (code : ErrCode) : Status :=
  { t with rflag := false, xneg := false, yneg := false, err := true, ecode := code }

end Sys2Proof.Machine
end

