-- ==== Sys2Proof/Machine/Operands.lean ====
section
/-! DEFINITION. The operand registers: their words as the bus sees them, reading and writing them, and the values a
command captures (20_memory.md R60, R66; 10_state.md R32, R33; 70_reset_and_hazards.md R251). -/

namespace Sys2Proof.Machine

open Sys2Proof

/-- OPW (00_scope.md R4). -/
def Params.opw (p : Params) : Nat := 32 * p.opwWords

/-- Bits 32i+31..32i of `v` (20_memory.md R60). -/
def wordOf (v i : Nat) : Word := BitVec.ofNat 32 (v / 2 ^ (32 * i))

/-- `v` with bits 32i+31..32i replaced by `w` and every other bit as it was (20_memory.md R66). -/
def setWord (v i : Nat) (w : Word) : Nat :=
  v / 2 ^ (32 * (i + 1)) * 2 ^ (32 * (i + 1)) + w.toNat * 2 ^ (32 * i) + v % 2 ^ (32 * i)

/-- Byte lane j of a bus word: bits 8j+7..8j (20_memory.md R60). -/
def byteLane (w : Word) (j : Nat) : BitVec 8 := w.extractLsb' (8 * j) 8

/-- The number whose word i is `f i`, for i < n. -/
def assemble : Nat → (Nat → Word) → Nat
  | 0, _ => 0
  | n + 1, f => assemble n f + (f n).toNat * 2 ^ (32 * n)

/-- The value V[k] stores. -/
def State.vreg (s : State) (k : Reg) : Nat := s.v[k.val]

/-- Word i of V[k] has been written since reset. -/
def State.wordWritten (s : State) (k : Reg) (i : Nat) : Bool := s.written[k.val].getLsbD i

/-- V[k] has a known value: all its OPW/32 words have been written since reset
(70_reset_and_hazards.md R251). -/
def State.fullyWritten (s : State) (k : Reg) : Bool := (List.range s.par.opwWords).all (s.wordWritten k)

/-- An unknown register value: one free word for each word, the draws from `d` on (70_reset_and_hazards.md R251). -/
def Params.unknownValue (p : Params) (d : Nat) : Nat := assemble p.opwWords (fun i => Config.freeWord (d + i))

/-- V[k] as a command captures it (10_state.md R33): its value, or an unknown one where V[k] has no known value. -/
def State.sourceValue (s : State) (k : Reg) (d : Nat) : Nat :=
  if s.fullyWritten k then s.vreg k else s.par.unknownValue d

/-- The three sources a command captures hold known values: each is fully written. -/
def State.sourcesWritten (s : State) (ra rb rc : Reg) : Bool :=
  s.fullyWritten ra && s.fullyWritten rb && s.fullyWritten rc

/-- Writes of whole registers, one after another (60_exceptions.md R215). -/
def writeAll (v : Vector Nat 16) (writes : List (Reg × Nat)) : Vector Nat 16 :=
  writes.foldl (fun v kx => v.set kx.1.val kx.2) v

/-- A completion's write gives its register a value in every word (70_reset_and_hazards.md R251). -/
def markAll (m : Vector (BitVec 256) 16) (writes : List (Reg × Nat)) : Vector (BitVec 256) 16 :=
  writes.foldl (fun m kx => m.set kx.1.val (BitVec.allOnes 256)) m

/-- A Host's write of word i of V[k] (20_memory.md R65, R66). -/
def State.setVWord (s : State) (k : Reg) (i : Nat) (w : Word) : State :=
  { s with
    v := s.v.set k.val (setWord (s.vreg k) i w)
    written := s.written.set k.val (s.written[k.val] ||| BitVec.twoPow 256 i) }

end Sys2Proof.Machine
end

