-- ==== Sys2Proof/Machine/Ops.lean ====
section
/-! DEFINITION. The named operations of the block: acceptance, completion, the bus, and reset. The block has no
trap (60_exceptions.md R221); what stands in its place is `completeError` and `acceptIllegal`, which record the
error and set DONE, and the acknowledgement by a write to EVENTS (R222). -/

namespace Sys2Proof.Machine

open Sys2Proof

/-- `complete_ok` (60_exceptions.md R215). -/
def completeOk (writes : List (Reg × Nat)) (rflag xneg yneg : Bool) (s : State) : State :=
  { s with
    v := writeAll s.v writes
    written := markAll s.written writes
    status := s.status.completedOk rflag xneg yneg
    job := { s.job with valid := false, wreq := false }
    events := { s.events with done := true }
    witness := none }

/-- `complete_error` (60_exceptions.md R216): the shared taking of an error at completion. -/
def completeError (code : ErrCode) (s : State) : State :=
  { s with
    status := s.status.completedError code
    job := { s.job with valid := false, wreq := false }
    events := { s.events with done := true }
    witness := none }

/-- The record S that acceptance of a legal word makes (60_exceptions.md R212; 40_primality.md R132). Each source
is captured with draws of its own. -/
def acceptedJob (w : Word) (s : State) : Job :=
  let n := s.par.opwWords
  let a := s.sourceValue (fieldRa w) s.draws
  { valid := true
    opc := fieldOpc w
    rd := fieldRd w
    ra := fieldRa w
    rb := fieldRb w
    rc := fieldRc w
    ry := fieldRy w
    imm := fieldImm w
    a := a
    b := s.sourceValue (fieldRb w) (s.draws + n)
    c := s.sourceValue (fieldRc w) (s.draws + 2 * n)
    doneRounds := 0
    wreq := fieldOpc w == 2 && needsWitness a (fieldImm w) }

/-- `accept_legal` (60_exceptions.md R212). EVENTS stays. -/
def acceptLegal (w : Word) (s : State) : State :=
  { s with
    job := acceptedJob w s
    status := Status.accepted (fieldOpc w) .none
    draws := s.draws + 3 * s.par.opwWords }

/-- `accept_illegal` (60_exceptions.md R213): the shared taking of an error at acceptance. -/
def acceptIllegal (w : Word) (s : State) : State :=
  { s with
    status := Status.accepted (fieldOpc w) .illegal
    events := { s.events with done := true } }

/-- `accept` (60_exceptions.md R211). -/
def accept (w : Word) (s : State) : State :=
  match decode w with
  | .legal _ => acceptLegal w s
  | .illegal _ => acceptIllegal w s

/-- What an offset inside the region names (10_state.md R20). -/
inductive Place where
  | id | param | cmd | status | events | irqen
  | vword (k : Reg) (i : Nat)
  | reserved
deriving DecidableEq, Repr

/-- The register map (10_state.md R20), for offsets 0x0000..0x4FFF. -/
def placeOf (opwWords off : Nat) : Place :=
  if off < 0x1000 then
    match off with
    | 0x000 => .id
    | 0x004 => .param
    | 0x008 => .cmd
    | 0x00C => .status
    | 0x010 => .events
    | 0x014 => .irqen
    | _ => .reserved
  else
    let i := off % 0x400 / 4
    if i < opwWords then .vword (Fin.ofNat 16 ((off - 0x1000) / 0x400)) i else .reserved

/-- The offset of a platform address, when the access reaches the block (00_scope.md R5; 10_state.md R20). -/
def Params.offset? (p : Params) (addr : Nat) : Option Nat :=
  if p.base ≤ addr ∧ addr < p.base + 0x5000 then some (addr - p.base) else none

/-- The access is the one defined kind: aligned, with all four byte lanes (20_memory.md R62). -/
def wholeWord (off : Nat) (lanes : BitVec 4) : Bool := off % 4 == 0 && lanes == 0xF

/-- A read of a V word (20_memory.md R64, R68): 0 while BUSY; else the word, or, where the register has no known
value, a free word, with a draw taken (70_reset_and_hazards.md R251). -/
def readVWord (k : Reg) (i : Nat) (s : State) : State :=
  if s.busy then { s with rdata := 0 }
  else if s.fullyWritten k then { s with rdata := wordOf (s.vreg k) i }
  else { s with rdata := Config.freeWord s.draws, draws := s.draws + 1 }

/-- `BusRead` of an aligned whole word (20_memory.md R64). -/
def busReadWord (off : Nat) (s : State) : State :=
  match placeOf s.par.opwWords off with
  | .id => { s with rdata := idWord }
  | .param => { s with rdata := s.paramWord }
  | .cmd => { s with rdata := 0 }
  | .status => { s with rdata := s.statusWord }
  | .events => { s with rdata := s.eventsWord }
  | .irqen => { s with rdata := s.irqenWord }
  | .vword k i => readVWord k i s
  | .reserved => { s with rdata := 0 }

/-- A write the block drops while BUSY (20_memory.md R67). -/
def overrun (s : State) : State := { s with events := { s.events with ovr := true } }

/-- `BusWrite` of an aligned whole word (20_memory.md R65). -/
def busWriteWord (off : Nat) (w : Word) (s : State) : State :=
  match placeOf s.par.opwWords off with
  | .id => s
  | .param => s
  | .cmd => if s.busy then overrun s else accept w s
  | .status => s
  | .events => { s with events := s.events.w1c w }
  | .irqen => { s with irqen := irqenOf w }
  | .vword k i => if s.busy then overrun s else s.setVWord k i w
  | .reserved => s

/-- Any read inside the region: one of another width or alignment returns 0 (20_memory.md R62). -/
def busRead (off : Nat) (lanes : BitVec 4) (s : State) : State :=
  if wholeWord off lanes then busReadWord off s else { s with rdata := 0 }

/-- Any write inside the region: one of another width or alignment is ignored (20_memory.md R62). -/
def busWrite (off : Nat) (lanes : BitVec 4) (w : Word) (s : State) : State :=
  if wholeWord off lanes then busWriteWord off w s else s

/-- The reset input (70_reset_and_hazards.md R250, R251): the parameters stay, as do the inputs still to come; the
draws go on, so that a register not fully written since this reset is drawn afresh. -/
def resetInput (s : State) : State :=
  { State.resetWith s.par with draws := s.draws, inputs := s.inputs }

/-- The command that S holds (60_exceptions.md R214: "the command's pseudocode on S"). -/
def Job.command? (j : Job) : Option Instr :=
  match j.opc.toNat with
  | 1 => some (.mrround j.rd j.ra j.rb)
  | 2 => some (.primetest j.rd j.ra j.imm)
  | 3 => some (.modpow j.rd j.ra j.rb j.rc)
  | 4 => some (.modmul j.rd j.ra j.rb j.rc)
  | 5 => some (.egcd j.rd j.ra j.rb j.rc j.ry)
  | 6 => some (.modinv j.rd j.ra j.rc)
  | _ => none

/-- The request at the Entropy port: the n whose witness is asked for (40_primality.md R132, R136). -/
def State.witnessRequest (s : State) : Option Nat := if s.job.wreq then some s.job.a else none

end Sys2Proof.Machine
end

