-- ==== Sys2Proof/Machine/ModExp.lean ====
section
/-! DEFINITION. The Engine steps of MODPOW and MODMUL (41_modexp.md). -/

namespace Sys2Proof.Machine

open Sys2Proof

/-- A completion with one residue: V[rd] takes it and every flag is 0. -/
def completeResidue (rd : Reg) (x : Nat) (s : State) : State := completeOk [(rd, x)] false false false s

/-- MODPOW (41_modexp.md R151), on b = S.a, e = S.b, m = S.c. -/
def execModpow (rd : Reg) (s : State) : Host.Outcome State Fault Refusal :=
  .next (if s.job.c = 0 then completeError .modZero s
    else completeResidue rd (modpow s.job.a s.job.b s.job.c) s)

/-- MODMUL (41_modexp.md R160), on a = S.a, b = S.b, m = S.c. -/
def execModmul (rd : Reg) (s : State) : Host.Outcome State Fault Refusal :=
  .next (if s.job.c = 0 then completeError .modZero s
    else completeResidue rd (s.job.a * s.job.b % s.job.c) s)

end Sys2Proof.Machine
end

