-- ==== Sys2Proof/Machine/GcdInverse.lean ====
section
/-! DEFINITION. The Engine steps of EGCD and MODINV (42_gcd_inverse.md). -/

namespace Sys2Proof.Machine

open Sys2Proof

/-- EGCD (42_gcd_inverse.md R181, R183), on a = S.a, b = S.b: g, |x| and |y|, with the signs in STATUS. -/
def execEgcd (rd rc ry : Reg) (s : State) : Host.Outcome State Fault Refusal :=
  let r := egcd s.job.a s.job.b
  .next (completeOk [(rd, r.g), (rc, r.x.natAbs), (ry, r.y.natAbs)] false (decide (r.x < 0)) (decide (r.y < 0)) s)

/-- MODINV (42_gcd_inverse.md R190), on a = S.a, n = S.c: the modulus is checked first. -/
def execModinv (rd : Reg) (s : State) : Host.Outcome State Fault Refusal :=
  .next (if s.job.c = 0 then completeError .modZero s
    else match modinv s.job.a s.job.c with
      | none => completeError .invUndef s
      | some r => completeResidue rd r s)

end Sys2Proof.Machine
end

