-- ==== Sys2Proof/Machine/Primality.lean ====
section
/-! DEFINITION. The Engine steps of MRROUND and PRIMETEST (40_primality.md). -/

namespace Sys2Proof.Machine

open Sys2Proof

/-- A completion with a verdict: 1 or 0 in V[rd], and in RFLAG (40_primality.md R121, R130;
92_eei_decisions.md D37). -/
def completeVerdict (rd : Reg) (verdict : Bool) (s : State) : State :=
  completeOk [(rd, verdict.toNat)] verdict false false s

/-- MRROUND (40_primality.md R121), on n = S.a and a = S.b. -/
def execMrround (rd : Reg) (s : State) : Host.Outcome State Fault Refusal :=
  .next (if mrInRange s.job.a s.job.b then completeVerdict rd (mrRound s.job.a s.job.b) s
    else completeError .mrRange s)

/-- `round_step(w)` (40_primality.md R133), with `k` rounds asked for. -/
def roundStep (rd : Reg) (k : BitVec 8) (w : Nat) (s : State) : State :=
  if mrRound s.job.a w then
    if s.job.doneRounds + 1 = k then completeVerdict rd true { s with job.doneRounds := s.job.doneRounds + 1 }
    else { s with job.doneRounds := s.job.doneRounds + 1, job.wreq := true, witness := none }
  else completeVerdict rd false s

/-- The Entropy port holds an answer to the outstanding request (40_primality.md R133). -/
def State.answered (s : State) : Option Nat :=
  if s.job.wreq then s.witness.filter (fun w => decide (2 ≤ w ∧ w ≤ s.job.a - 2)) else none

/-- PRIMETEST (40_primality.md R130, R132, R133, R135): it completes at once where no witness is needed; else the
round step, when the Entropy source has answered; else the Engine has no enabled step (R137). -/
def execPrimetest (rd : Reg) (k : BitVec 8) (s : State) : Host.Outcome State Fault Refusal :=
  .next (match primeTrivial s.job.a with
    | some verdict => completeVerdict rd verdict s
    | none =>
      if k = 0 then completeVerdict rd true s
      else match s.answered with
        | some w => roundStep rd k w s
        | none => s)

end Sys2Proof.Machine
end

