-- ==== Sys2Proof/Machine/Dispatch.lean ====
section
/-! DEFINITION. One arm for each command: the Engine step that runs it on the in-flight record S
(60_exceptions.md R214). The sources RA, RB, RC are not read here: acceptance captured them into S.a, S.b, S.c
(10_state.md R33). -/

namespace Sys2Proof.Machine

open Sys2Proof

def exec (i : Instr) (s : State) : Host.Outcome State Fault Refusal :=
  match i with
  | .mrround rd _ _ => Sys2Proof.Machine.execMrround rd s
  | .primetest rd _ k => Sys2Proof.Machine.execPrimetest rd k s
  | .modpow rd _ _ _ => Sys2Proof.Machine.execModpow rd s
  | .modmul rd _ _ _ => Sys2Proof.Machine.execModmul rd s
  | .egcd rd _ _ rc ry => Sys2Proof.Machine.execEgcd rd rc ry s
  | .modinv rd _ _ => Sys2Proof.Machine.execModinv rd s

end Sys2Proof.Machine
end

