-- ==== Sys2Proof/Machine/Agents.lean ====
section
/-! DEFINITION. What each agent's turn does (00_scope.md R6), and the issue of one command word for the host. -/

namespace Sys2Proof.Machine

open Sys2Proof

/-- The Engine's turn (60_exceptions.md R214): it runs the command in flight; with none in flight, nothing. -/
def engineStep (s : State) : Host.Outcome State Fault Refusal :=
  if s.busy then
    match s.job.command? with
    | some i => exec i s
    | none => .fault .corruptRecord
  else .next s

/-- The Entropy source's turn (40_primality.md R133, R136): its answer, in range, goes to the port and the Engine
consumes it in the same step; with no request outstanding the answer is discarded
(70_reset_and_hazards.md R250). -/
def answerStep (w : Nat) (s : State) : Host.Outcome State Fault Refusal :=
  match s.witnessRequest with
  | none => .next s
  | some n => if 2 ≤ w ∧ w ≤ n - 2 then engineStep { s with witness := some w } else .refused .witnessOutOfRange

/-- One input (00_scope.md R6; 70_reset_and_hazards.md R265). -/
def perform (e : Input) (s : State) : Host.Outcome State Fault Refusal :=
  match e with
  | .read acc =>
    match s.par.offset? acc.addr with
    | some off => .next (busRead off acc.lanes s)
    | none => .refused .outsideRegion
  | .write acc w =>
    match s.par.offset? acc.addr with
    | some off => .next (busWrite off acc.lanes w s)
    | none => .refused .outsideRegion
  | .engine => engineStep s
  | .answer w => answerStep w s
  | .staleAnswer _ => .next s
  | .reset => .next (resetInput s)

/-- The turn of the agent that moves next: the oldest input; with none queued, the Engine's
(70_reset_and_hazards.md R263: an Engine step that stays enabled is taken). -/
def turn (s : State) : Host.Outcome State Fault Refusal :=
  match s.inputs with
  | [] => engineStep s
  | e :: rest => perform e { s with inputs := rest }

/-- The access of a CMD write (10_state.md R20, R39). -/
def Params.cmdAccess (p : Params) : Access := { addr := p.base + 0x008, lanes := 0xF }

/-- `s` with the command word `w` issued to the idle block, so that the very next step runs it: a legal word is
accepted (60_exceptions.md R212) and the Engine moves next; an ILLEGAL word is the next Host write to CMD, since
its acceptance is all it does (R213). -/
def issueWord (w : Word) (s : State) : State :=
  let idle := { s with job.valid := false, job.wreq := false }
  match decode w with
  | .legal _ => { acceptLegal w idle with inputs := .engine :: s.inputs }
  | .illegal _ => { idle with inputs := .write s.par.cmdAccess w :: s.inputs }

end Sys2Proof.Machine
end

