-- ==== Sys2Proof/Machine/Step.lean ====
section
/-! DEFINITION. One step of the machine, and the placing of one instruction where the next step runs it. -/

namespace Sys2Proof.Machine

open Sys2Proof

/-- One step: the agent that moves next takes its turn (00_scope.md R6). -/
def step (s : State) : Host.Outcome State Fault Refusal := turn s

/-- `s` with an instruction of the opcode table, its bits `w`, issued (log entry 7). -/
def State.withFetchWord (s : State) (nbits w : Nat) : State := issueWord (tableWord nbits w) s

end Sys2Proof.Machine
end

