-- ==== Sys2Proof/Safety.lean ====
section
/-! DEFINITION. The terms claims use: the invariant of the machine, what a Host must have done before it issues a
command, what a completion leaves, and PRIMETEST as one sequential program. -/

namespace Sys2Proof.Machine

open Sys2Proof

/-- The block is quiescent (70_reset_and_hazards.md R264). -/
def State.quiescent (s : State) : Bool := !s.busy

/-- The access of one aligned whole word at an offset of the block (20_memory.md R62). -/
def Params.wordAccess (p : Params) (off : Nat) : Access := { addr := p.base + off, lanes := 0xF }

/-- The offset of word i of V[k] (20_memory.md R60). -/
def vOffset (k : Reg) (i : Nat) : Nat := 0x1000 + 0x400 * k.val + 4 * i

/-- The Host may issue `i` (70_reset_and_hazards.md R254, R255): the block is quiescent, and every word of every
source has been written since reset. -/
def State.ready (i : Instr) (s : State) : Bool := s.quiescent && i.wf && (i.sources).all s.fullyWritten

/-- The command word S was filled from (60_exceptions.md R212). -/
def Job.word (j : Job) : Word := assembleFields j.imm j.rc j.rb j.ra j.rd j.opc

/-- OPW and BASE are in range (00_scope.md R4, R5). -/
abbrev Params.Ok (p : Params) : Prop := 2 ≤ p.opwWords ∧ p.opwWords ≤ 256 ∧ p.base % 4096 = 0

/-- Every V register holds an integer in [0, 2^OPW) (10_state.md R32). -/
abbrev State.RegistersInRange (s : State) : Prop := ∀ k : Reg, s.vreg k < 2 ^ s.par.opw

/-- So do the captured operands (10_state.md R30). -/
abbrev State.OperandsInRange (s : State) : Prop :=
  s.job.a < 2 ^ s.par.opw ∧ s.job.b < 2 ^ s.par.opw ∧ s.job.c < 2 ^ s.par.opw

/-- A record in flight holds a legal command word, and STATUS is as its acceptance left it
(60_exceptions.md R212). -/
abbrev State.RecordLegal (s : State) : Prop :=
  s.busy = true →
    s.job.command?.isSome = true ∧ (decode s.job.word).instr? = s.job.command? ∧
      s.status = Status.accepted s.job.opc .none

/-- A witness request is outstanding exactly while a PRIMETEST that needs one is in flight, and then fewer rounds
are done than asked for (40_primality.md R132, R133). -/
abbrev State.RequestExact (s : State) : Prop :=
  s.job.wreq = (s.busy && s.job.opc == 2 && needsWitness s.job.a s.job.imm) ∧
    (s.job.wreq = true → s.job.doneRounds.toNat < s.job.imm.toNat)

/-- STATUS is consistent: ERR goes with an error code; an error has no result flag; RFLAG names a primality
command and a sign flag names EGCD (10_state.md R25 to R28). -/
abbrev State.StatusConsistent (s : State) : Prop :=
  s.status.err = (s.status.ecode != .none) ∧
    (s.status.err = true → s.status.rflag = false ∧ s.status.xneg = false ∧ s.status.yneg = false) ∧
    (s.status.rflag = true → s.status.lastop = 1 ∨ s.status.lastop = 2) ∧
    (s.status.xneg = true ∨ s.status.yneg = true → s.status.lastop = 5)

/-- The invariant every step keeps. -/
structure State.Inv (s : State) : Prop where
  params : s.par.Ok
  registers : s.RegistersInRange
  operands : s.OperandsInRange
  record : s.RecordLegal
  request : s.RequestExact
  status : s.StatusConsistent
  /-- The Entropy port is empty between steps. -/
  port : s.witness = none

/-- What a command leaves as it was: every V register but `dests`, IRQEN, EVENTS.OVR, LASTOP, the parameters, the
port, the queue, and the fields of S that name the command. -/
structure CommandFrame (dests : List Reg) (s t : State) : Prop where
  vreg : ∀ k, k ∉ dests → t.vreg k = s.vreg k
  wordWritten : ∀ k, k ∉ dests → ∀ i, t.wordWritten k i = s.wordWritten k i
  irqen : t.irqen = s.irqen
  ovr : t.events.ovr = s.events.ovr
  lastop : t.status.lastop = s.status.lastop
  par : t.par = s.par
  rdata : t.rdata = s.rdata
  draws : t.draws = s.draws
  inputs : t.inputs = s.inputs
  record : t.job = { s.job with valid := t.job.valid, wreq := t.job.wreq, doneRounds := t.job.doneRounds }

/-- `t` is as a successful completion leaves it (60_exceptions.md R215): the destinations hold their values in
every word, the flags are as given, BUSY and the witness request are gone, DONE is set. -/
structure CompletesOk (writes : List (Reg × Nat)) (rflag xneg yneg : Bool) (s t : State) : Prop where
  frame : CommandFrame (writes.map Prod.fst) s t
  value : ∀ k x, (k, x) ∈ writes → t.vreg k = x ∧ ∀ i, i < 256 → t.wordWritten k i = true
  status : t.status =
    { err := false, rflag := rflag, xneg := xneg, yneg := yneg, ecode := .none, lastop := s.status.lastop }
  quiescent : t.quiescent = true
  request : t.witnessRequest = none
  done : t.events.done = true
  port : t.witness = none

/-- `t` is as a completion in error leaves it (60_exceptions.md R216, R217): no V register is written. -/
structure CompletesInError (code : ErrCode) (s t : State) : Prop where
  frame : CommandFrame [] s t
  status : t.status =
    { err := true, rflag := false, xneg := false, yneg := false, ecode := code, lastop := s.status.lastop }
  quiescent : t.quiescent = true
  request : t.witnessRequest = none
  done : t.events.done = true
  port : t.witness = none

/-- The rounds of PRIMETEST's program on the draws in order; none where they run out (40_primality.md R130). -/
def primetestLoop (n : Nat) : Nat → List Nat → Option Bool
  | 0, _ => some true
  | _ + 1, [] => none
  | r + 1, w :: ws => if mrRound n w then primetestLoop n r ws else some false

/-- PRIMETEST as one sequential program (40_primality.md R130). -/
def primetestProgram (n k : Nat) (ws : List Nat) : Option Bool :=
  match primeTrivial n with
  | some verdict => some verdict
  | none => primetestLoop n k ws

/-- Every draw lies in [2, n - 2] (40_primality.md R136). -/
def drawsInRange (n : Nat) (ws : List Nat) : Bool := ws.all (fun w => decide (2 ≤ w ∧ w ≤ n - 2))

/-- The integer that a magnitude and a sign flag stand for (42_gcd_inverse.md R183). -/
def signedValue (neg : Bool) (x : Nat) : Int := if neg then -(x : Int) else x

/-- The Host's writes that load `n` into V[k], least significant word first (30_encoding.md R105, LDV). -/
def loadWrites (p : Params) (k : Reg) (n : Nat) : List Input :=
  (List.range p.opwWords).map (fun i => .write (p.wordAccess (vOffset k i)) (wordOf n i))

/-- A run of `k` steps of the machine. -/
def runSteps (k : Nat) (s : State) : Host.Outcome State Fault Refusal := Host.Core.run Sys2Proof.core k s

end Sys2Proof.Machine
end

