-- ==== Sys2Proof/Certificates/Slice0/Obligations.lean ====
section
/-! DEFINITION. What is claimed of the machine: statements for the provers, each from the rules its docstring
cites. -/

open Sys2Proof Sys2Proof.Machine

/-! ## The command word -/

/-- R90, R98, R103: the word of every well-formed command decodes to that command, with every operand. -/
def Obligations.EncodeThenDecode : Prop :=
  ∀ i : Instr, i.wf = true → decode (encode i) = .legal i

/-- R98, R103: a word that decodes to a command is that command's own word, and the command is well formed: no
two words mean one command. -/
def Obligations.DecodedWordsAreEncodings : Prop :=
  ∀ (w : Word) (i : Instr), decode w = .legal i → i.wf = true ∧ encode i = w

/-- R99: a word decodes to a command with a row's mnemonic exactly when the row selects it and, for EGCD, the
three destinations differ. -/
def Obligations.DecoderFollowsOpcodeMap : Prop :=
  ∀ (w : Word) (r : OpcodeRow), r ∈ opcodeMap →
    ((∃ i, decode w = .legal i ∧ i.mnemonic = r.mnemonic) ↔
      r.selects w = true ∧
        (r.mnemonic = "EGCD" →
          w.extractLsb' 8 4 ≠ w.extractLsb' 20 4 ∧ w.extractLsb' 8 4 ≠ w.extractLsb' 24 4 ∧
            w.extractLsb' 20 4 ≠ w.extractLsb' 24 4))

/-- R100: a word whose OPC is 0x00 or 0x07..0xFF is ILLEGAL. -/
def Obligations.ReservedOpcodesAreIllegal : Prop :=
  ∀ w : Word, w.toNat % 256 = 0 ∨ 7 ≤ w.toNat % 256 → decode w = .illegal .reservedOpcode

/-- R92 to R96, R98: words written out from the encodings, one legal word of each format and one ILLEGAL word for
each reason. -/
def Obligations.SampleCommandWords : Prop :=
  decode 0x00010201 = .legal (.mrround 2 0 1) ∧
  decode 0x05000302 = .legal (.primetest 3 0 5) ∧
  decode 0x00310203 = .legal (.modpow 2 0 1 3) ∧
  decode 0x00310204 = .legal (.modmul 2 0 1 3) ∧
  decode 0x0F0E0D05 = .legal (.egcd 13 0 14 0 15) ∧
  decode 0x00300206 = .legal (.modinv 2 0 3) ∧
  decode 0x00000000 = .illegal .reservedOpcode ∧
  decode 0x00310206 = .illegal .nonzeroField ∧
  decode 0x04210205 = .illegal .sameDestinations

/-! ## Reset -/

/-- R250, R38: for every OPW and BASE, after reset STATUS, EVENTS and IRQEN read 0, irq is 0, nothing is in
flight and no witness is asked for. -/
def Obligations.ResetClearsControlState : Prop :=
  ∀ p : Params,
    (State.resetWith p).statusWord = 0 ∧ (State.resetWith p).eventsWord = 0 ∧ (State.resetWith p).irqenWord = 0 ∧
      (State.resetWith p).irq = false ∧ (State.resetWith p).quiescent = true ∧
      (State.resetWith p).witnessRequest = none ∧ (State.resetWith p).par = p

/-- R250, R251: the reset input, at any time and whatever comes after it, discards the command in flight with no
completion and no DONE, clears STATUS, EVENTS and IRQEN, withdraws the witness request, and leaves no V register with a
known value. -/
def Obligations.ResetInputDiscardsCommand : Prop :=
  ∀ (s : State) (rest : List Input), s.inputs = .reset :: rest →
    ∃ t, step s = .next t ∧ t.statusWord = 0 ∧ t.eventsWord = 0 ∧ t.irqenWord = 0 ∧ t.irq = false ∧
      t.quiescent = true ∧ t.witnessRequest = none ∧ t.par = s.par ∧
      (∀ k i, t.wordWritten k i = false) ∧ (s.par.Ok → ∀ k, t.fullyWritten k = false) ∧ t.inputs = rest

/-- R250: a witness delivered for a request that reset withdrew is discarded, in every state, and so is an answer that
comes with no request outstanding: it changes nothing. That both are inputs of the queue is the model's choice (log
entries 4 and 5). -/
def Obligations.LateWitnessIsDiscarded : Prop :=
  ∀ (s : State) (w : Nat) (rest : List Input),
    (s.inputs = .staleAnswer w :: rest → step s = .next { s with inputs := rest }) ∧
    (s.inputs = .answer w :: rest → s.witnessRequest = none → step s = .next { s with inputs := rest })

/-! ## The machine as a whole -/

/-- The state after reset meets the invariant. It rests on the reset values that the model chose where the spec gives
none: the stored V registers (log entry 1), OPW and BASE (log entry 3), S (log entry 8) and the empty port (log
entry 5). -/
def Obligations.ResetStateMeetsInvariant : Prop := State.reset.Inv

/-- R24 to R28, R30, R32, R132: every step from a state that meets the invariant, whatever the agents do, gives a
state that meets it. That the Entropy port is empty between steps is the model's own (log entry 5). -/
def Obligations.StepKeepsInvariant : Prop :=
  ∀ s t : State, s.Inv → step s = .next t → t.Inv

/-- R217, R221: no step of a state that meets the invariant ends in a fault, and only an access outside the region or
a draw out of range is refused: no command and no error of a command stops the block. The two refusals are the model's choice (log
entries 5 and 9). -/
def Obligations.OnlyOutsideInputsAreRefused : Prop :=
  ∀ s : State, s.Inv →
    (∃ t, step s = .next t) ∨
    (step s = .refused .outsideRegion ∧
      ∃ acc rest, (s.inputs = .read acc :: rest ∨ ∃ w, s.inputs = .write acc w :: rest) ∧
        ¬(s.par.base ≤ acc.addr ∧ acc.addr < s.par.base + 0x5000)) ∨
    (step s = .refused .witnessOutOfRange ∧
      ∃ w rest, s.inputs = .answer w :: rest ∧ ¬(2 ≤ w ∧ w ≤ s.job.a - 2))

/-- R4, R5, R22: no step changes OPW, BASE or PARAM. -/
def Obligations.ParametersNeverChange : Prop :=
  ∀ s t : State, step s = .next t → t.par = s.par ∧ t.paramWord = s.paramWord

/-- R214, R133: when the word in flight decodes to `i`, the Engine's turn is exec of `i`: with nothing queued, at an
engine input, and at an answer in range, which the port then holds. The queue and the port are the model's choice (log
entries 4, 5 and 7). -/
def Obligations.EngineTurnRunsCommandInFlight : Prop :=
  ∀ (s : State) (i : Instr), s.RecordLegal → s.busy = true → decode s.job.word = .legal i →
    (s.inputs = [] → step s = exec i s) ∧
    (∀ rest, s.inputs = .engine :: rest → step s = exec i { s with inputs := rest }) ∧
    (∀ w rest, s.inputs = .answer w :: rest → s.job.wreq = true → 2 ≤ w → w ≤ s.job.a - 2 →
      step s = exec i { s with inputs := rest, witness := some w })

/-- R211 to R214: an instruction placed by withFetchWord is run by the very next step: exec of it on the record its
acceptance made; an ILLEGAL word is recorded as ILLEGAL by that step. How an instruction is placed is the model's choice
(log entry 7). -/
def Obligations.FetchedWordRuns : Prop :=
  ∀ (s : State) (nbits w : Nat),
    (∀ i, decodeTableWord nbits w = some i →
      step (s.withFetchWord nbits w) =
        exec i { acceptLegal (tableWord nbits w) { s with job.valid := false, job.wreq := false } with
          inputs := s.inputs }) ∧
    (decodeTableWord nbits w = none →
      ∃ t, step (s.withFetchWord nbits w) = .next t ∧ t.status.err = true ∧ t.status.ecode = .illegal ∧
        t.quiescent = true ∧ t.events.done = true ∧ t.v = s.v ∧ t.inputs = s.inputs)

/-- R263: with no other agent moving, the Engine's next step completes every command in flight that waits for no
witness. That an empty queue is the Engine's turn is the model's choice (log entry 4). -/
def Obligations.EngineCompletesWhenNothingIsQueued : Prop :=
  ∀ s : State, s.Inv → s.inputs = [] → s.busy = true → s.job.wreq = false →
    ∃ t, step s = .next t ∧ t.quiescent = true ∧ t.events.done = true ∧ t.status.lastop = s.job.opc

/-- R35: every step that ends a command, but reset, leaves EVENTS.DONE set, set already or not, and so does an idle
write of an ILLEGAL word to CMD; DONE rises at no other step; and it falls only at a Host write to EVENTS that holds a 1
for it, or at reset. -/
def Obligations.DoneRecordsCompletions : Prop :=
  ∀ s t : State, step s = .next t →
    (s.busy = true → t.busy = false → t.events.done = true ∨ ∃ rest, s.inputs = .reset :: rest) ∧
    (∀ w rest, s.busy = false → s.inputs = .write (s.par.wordAccess 0x008) w :: rest → (decode w).instr? = none →
      t.events.done = true) ∧
    (s.events.done = false → t.events.done = true →
      (s.busy = true ∧ t.busy = false) ∨
      (s.busy = false ∧ t.busy = false ∧ t.status.ecode = .illegal ∧
        ∃ w rest, s.inputs = .write (s.par.wordAccess 0x008) w :: rest ∧ (decode w).instr? = none)) ∧
    (s.events.done = true → t.events.done = false →
      (∃ w rest, s.inputs = .write (s.par.wordAccess 0x010) w :: rest ∧ w.getLsbD 0 = true) ∨
      ∃ rest, s.inputs = .reset :: rest)

/-- R36, R67, R219: EVENTS.OVR rises only at a Host write while BUSY, and that step changes nothing else: it
completes no command. -/
def Obligations.OverrunRisesOnlyAtDroppedWrite : Prop :=
  ∀ s t : State, step s = .next t → s.events.ovr = false → t.events.ovr = true →
    s.busy = true ∧ ∃ acc w rest, s.inputs = .write acc w :: rest ∧
      t = { s with inputs := rest, events := { s.events with ovr := true } }

/-- R32, R33: the value of a V register changes only by a write to its own window while idle, by the completion of a
command that names it as a destination, or by reset. -/
def Obligations.RegistersChangeOnlyByHostOrCompletion : Prop :=
  ∀ (s t : State) (k : Reg), step s = .next t → t.vreg k ≠ s.vreg k →
    (s.busy = false ∧ ∃ acc w rest, s.inputs = .write acc w :: rest ∧
      s.par.base + 0x1000 + 0x400 * k.val ≤ acc.addr ∧ acc.addr < s.par.base + 0x1400 + 0x400 * k.val) ∨
    (s.busy = true ∧ t.busy = false ∧ ∃ i, s.job.command? = some i ∧ k ∈ i.dests) ∨
    (∃ rest, s.inputs = .reset :: rest)

/-- R24, R29: BUSY rises only at an idle write of a legal word to CMD, and LASTOP changes only at an idle write to
CMD, whose bits 7:0 it takes, or at reset. -/
def Obligations.BusyAndLastopFollowCmdWrites : Prop :=
  ∀ s t : State, step s = .next t →
    (s.busy = false → t.busy = true →
      ∃ w rest i, s.inputs = .write (s.par.wordAccess 0x008) w :: rest ∧ decode w = .legal i) ∧
    (t.status.lastop ≠ s.status.lastop →
      (s.busy = false ∧ ∃ w rest, s.inputs = .write (s.par.wordAccess 0x008) w :: rest ∧
        t.status.lastop = w.extractLsb' 0 8) ∨
      ∃ rest, s.inputs = .reset :: rest)

/-! ## Acceptance -/

/-- R211, R212, R132: an idle write of a legal word to CMD captures the word's fields and the source values, sets
BUSY, clears STATUS, and asks for a witness exactly where PRIMETEST needs one; no V register, event or enable
changes. A source that is not fully written since reset has no known value (R251; the free words it is captured with are the model's choice, log entries 1 and 2). -/
def Obligations.CmdWriteAcceptsLegalWord : Prop :=
  ∀ (s : State) (w : Word) (i : Instr) (rest : List Input), s.quiescent = true → decode w = .legal i →
    s.inputs = .write (s.par.wordAccess 0x008) w :: rest →
    ∃ t, step s = .next t ∧ t.inputs = rest ∧ t.busy = true ∧ t.job.command? = some i ∧
      t.job.opc = w.extractLsb' 0 8 ∧ t.job.rd.val = (w.extractLsb' 8 4).toNat ∧
      t.job.ra.val = (w.extractLsb' 12 4).toNat ∧ t.job.rb.val = (w.extractLsb' 16 4).toNat ∧
      t.job.rc.val = (w.extractLsb' 20 4).toNat ∧ t.job.ry.val = (w.extractLsb' 24 4).toNat ∧
      t.job.imm = w.extractLsb' 24 8 ∧
      (s.fullyWritten t.job.ra = true → t.job.a = s.vreg t.job.ra) ∧
      (s.fullyWritten t.job.rb = true → t.job.b = s.vreg t.job.rb) ∧
      (s.fullyWritten t.job.rc = true → t.job.c = s.vreg t.job.rc) ∧
      t.job.doneRounds = 0 ∧
      (t.job.wreq = true ↔ t.job.opc = 2 ∧ primeTrivial t.job.a = none ∧ t.job.imm ≠ 0) ∧
      t.status = { err := false, rflag := false, xneg := false, yneg := false, ecode := .none,
                   lastop := w.extractLsb' 0 8 } ∧
      t.v = s.v ∧ t.written = s.written ∧ t.events = s.events ∧ t.irqen = s.irqen ∧ t.par = s.par

/-- R213: an idle write of an ILLEGAL word to CMD records ILLEGAL in the same step: ERR, ECODE, LASTOP and DONE, no
BUSY, no V register, S unchanged. -/
def Obligations.CmdWriteRecordsIllegalWord : Prop :=
  ∀ (s : State) (w : Word) (why : Illegal) (rest : List Input), s.quiescent = true → decode w = .illegal why →
    s.inputs = .write (s.par.wordAccess 0x008) w :: rest →
    step s = .next { s with
      inputs := rest
      status := { err := true, rflag := false, xneg := false, yneg := false, ecode := .illegal,
                  lastop := w.extractLsb' 0 8 }
      events := { s.events with done := true } }

/-! ## The bus -/

/-- R67: while BUSY, a write to CMD or to an existing V word only sets OVR; one to a reserved word of a window does
nothing; writes to EVENTS and IRQEN act as when idle. -/
def Obligations.WritesWhileBusyAreDropped : Prop :=
  ∀ (s : State) (w : Word) (rest : List Input), s.par.Ok → s.busy = true →
    (s.inputs = .write (s.par.wordAccess 0x008) w :: rest →
      step s = .next { s with inputs := rest, events := { s.events with ovr := true } }) ∧
    (∀ k i, i < s.par.opwWords → s.inputs = .write (s.par.wordAccess (vOffset k i)) w :: rest →
      step s = .next { s with inputs := rest, events := { s.events with ovr := true } }) ∧
    (∀ k i, s.par.opwWords ≤ i → i < 256 → s.inputs = .write (s.par.wordAccess (vOffset k i)) w :: rest →
      step s = .next { s with inputs := rest }) ∧
    (s.inputs = .write (s.par.wordAccess 0x010) w :: rest →
      step s = .next { s with
        inputs := rest
        events := { done := s.events.done && !w.getLsbD 0, ovr := s.events.ovr && !w.getLsbD 1 } }) ∧
    (s.inputs = .write (s.par.wordAccess 0x014) w :: rest →
      step s = .next { s with inputs := rest, irqen := { doneIe := w.getLsbD 0, ovrIe := w.getLsbD 1 } })

/-- R68: while BUSY, a read of any word of any V window gives 0 with no side effect, and ID, PARAM, STATUS, EVENTS and
IRQEN read as their current values. -/
def Obligations.ReadsWhileBusy : Prop :=
  ∀ (s : State) (rest : List Input), s.par.Ok → s.busy = true →
    (∀ k i, i < 256 → s.inputs = .read (s.par.wordAccess (vOffset k i)) :: rest →
      step s = .next { s with inputs := rest, rdata := 0 }) ∧
    (s.inputs = .read (s.par.wordAccess 0x000) :: rest →
      step s = .next { s with inputs := rest, rdata := 0x4D455850 }) ∧
    (s.inputs = .read (s.par.wordAccess 0x004) :: rest →
      step s = .next { s with inputs := rest, rdata := s.paramWord }) ∧
    (s.inputs = .read (s.par.wordAccess 0x00C) :: rest →
      step s = .next { s with inputs := rest, rdata := s.statusWord }) ∧
    (s.inputs = .read (s.par.wordAccess 0x010) :: rest →
      step s = .next { s with inputs := rest, rdata := s.eventsWord }) ∧
    (s.inputs = .read (s.par.wordAccess 0x014) :: rest →
      step s = .next { s with inputs := rest, rdata := s.irqenWord })

/-- R64, R39: what an aligned read of each existing offset returns, idle or not; a word of a V register that is fully
written (R251) reads as its 32 bits, and while BUSY every V word reads as 0. -/
def Obligations.ReadsReturnTheMap : Prop :=
  ∀ (s : State) (off : Nat) (rest : List Input), s.par.Ok →
    s.inputs = .read (s.par.wordAccess off) :: rest →
    (off = 0x000 → step s = .next { s with inputs := rest, rdata := 0x4D455850 }) ∧
    (off = 0x004 → step s = .next { s with inputs := rest, rdata := s.paramWord }) ∧
    (off = 0x008 → step s = .next { s with inputs := rest, rdata := 0 }) ∧
    (off = 0x00C → step s = .next { s with inputs := rest, rdata := s.statusWord }) ∧
    (off = 0x010 → step s = .next { s with inputs := rest, rdata := s.eventsWord }) ∧
    (off = 0x014 → step s = .next { s with inputs := rest, rdata := s.irqenWord }) ∧
    (∀ k i, off = vOffset k i → i < s.par.opwWords →
      (s.busy = true → step s = .next { s with inputs := rest, rdata := 0 }) ∧
      (s.busy = false → s.fullyWritten k = true →
        ∃ x, step s = .next { s with inputs := rest, rdata := x } ∧
          ∀ b, b < 32 → x.getLsbD b = (s.vreg k).testBit (32 * i + b)))

/-- R69: no read has a side effect on the block: every read inside the region, of any width, alignment and offset,
changes at most the read data of the port (and, where it meets a register that is not fully written since reset,
the model's own count of free words: log entry 2). -/
def Obligations.ReadsChangeOnlyReadData : Prop :=
  ∀ (s : State) (acc : Access) (rest : List Input), s.inputs = .read acc :: rest →
    s.par.base ≤ acc.addr → acc.addr < s.par.base + 0x5000 →
    ∃ x d, step s = .next { s with inputs := rest, rdata := x, draws := d } ∧
      ((∀ k, s.fullyWritten k = true) → d = s.draws)

/-- R23, R64, R210: the bits of STATUS, PARAM, EVENTS and IRQEN as read, and the numbers of the error codes in
STATUS.ECODE. -/
def Obligations.RegisterWordsHaveTheirFields : Prop :=
  ∀ s : State, s.par.Ok →
    s.statusWord.toNat =
      s.busy.toNat + 2 * s.status.err.toNat + 4 * s.status.rflag.toNat + 8 * s.status.xneg.toNat +
        16 * s.status.yneg.toNat + 256 * s.status.ecode.code.toNat + 65536 * s.status.lastop.toNat ∧
    s.paramWord.toNat = 0x01100000 + s.par.opwWords ∧ 32 * s.par.opwWords = s.par.opw ∧
    s.eventsWord.toNat = s.events.done.toNat + 2 * s.events.ovr.toNat ∧
    s.irqenWord.toNat = s.irqen.doneIe.toNat + 2 * s.irqen.ovrIe.toNat ∧
    ErrCode.none.code = 0 ∧ ErrCode.illegal.code = 1 ∧ ErrCode.modZero.code = 2 ∧ ErrCode.invUndef.code = 3 ∧
    ErrCode.mrRange.code = 4

/-- R62: an access inside the region that is misaligned or does not enable all four byte lanes does nothing: the write
is ignored, the read gives 0. -/
def Obligations.NarrowAccessesAreInert : Prop :=
  ∀ (s : State) (acc : Access) (rest : List Input), s.par.Ok →
    s.par.base ≤ acc.addr → acc.addr < s.par.base + 0x5000 → acc.addr % 4 ≠ 0 ∨ acc.lanes ≠ 0xF →
    (∀ w, s.inputs = .write acc w :: rest → step s = .next { s with inputs := rest }) ∧
    (s.inputs = .read acc :: rest → step s = .next { s with inputs := rest, rdata := 0 })

/-- R40: a read of a reserved offset gives 0 and a write to one is ignored, with no event: offsets 0x018..0x0FFF,
and the words of each window from OPW/32 on. -/
def Obligations.ReservedOffsetsAreInert : Prop :=
  ∀ (s : State) (off : Nat) (rest : List Input), s.par.Ok → off % 4 = 0 →
    ((0x018 ≤ off ∧ off < 0x1000) ∨ ∃ k i, s.par.opwWords ≤ i ∧ i < 256 ∧ off = vOffset k i) →
    (∀ w, s.inputs = .write (s.par.wordAccess off) w :: rest → step s = .next { s with inputs := rest }) ∧
    (s.inputs = .read (s.par.wordAccess off) :: rest → step s = .next { s with inputs := rest, rdata := 0 })

/-- R21, R22, R23: a write to ID, PARAM or STATUS is ignored. -/
def Obligations.ReadOnlyRegistersIgnoreWrites : Prop :=
  ∀ (s : State) (off : Nat) (w : Word) (rest : List Input), off = 0x000 ∨ off = 0x004 ∨ off = 0x00C →
    s.inputs = .write (s.par.wordAccess off) w :: rest → step s = .next { s with inputs := rest }

/-- R34, R222: a write to EVENTS clears exactly the event bits it holds a 1 for, and lowers irq when no enabled event
is left. -/
def Obligations.EventsAreClearedByWritingOne : Prop :=
  ∀ (s : State) (w : Word) (rest : List Input), s.inputs = .write (s.par.wordAccess 0x010) w :: rest →
    ∃ t, step s = .next t ∧ t.eventsWord = s.eventsWord &&& ~~~w ∧
      t = { s with inputs := rest, events := t.events } ∧
      (t.irq = true ↔
        (s.events.done = true ∧ w.getLsbD 0 = false ∧ s.irqen.doneIe = true) ∨
        (s.events.ovr = true ∧ w.getLsbD 1 = false ∧ s.irqen.ovrIe = true))

/-- R37, R38, R220: a write to IRQEN sets the two enables and nothing else, IRQEN then reads as bits 1:0 of the written
word, and irq rises at once for an event that is already pending. -/
def Obligations.IrqenWriteSetsEnables : Prop :=
  ∀ (s : State) (w : Word) (rest : List Input), s.inputs = .write (s.par.wordAccess 0x014) w :: rest →
    ∃ t, step s = .next t ∧ t.irqenWord = w &&& 0x3 ∧ t = { s with inputs := rest, irqen := t.irqen } ∧
      (t.irq = true ↔
        (s.events.done = true ∧ w.getLsbD 0 = true) ∨ (s.events.ovr = true ∧ w.getLsbD 1 = true))

/-- R60, R65, R66: an idle write of word i of V[k], whatever comes after it, changes exactly bits 32i+31..32i of V[k], its
byte lanes in order, and nothing else; and where V[k] is then fully written (R251), a read of that word next gives what
was written. The count of written words is the model's (log entry 13), as are the stored bits of a register that is not
fully written (log entry 1). -/
def Obligations.VWordWriteChangesThirtyTwoBits : Prop :=
  ∀ (s : State) (k : Reg) (i : Nat) (w : Word) (rest : List Input), s.par.Ok → s.quiescent = true →
    i < s.par.opwWords →
    s.inputs = .write (s.par.wordAccess (vOffset k i)) w :: rest →
    ∃ t, step s = .next t ∧ t = { s with inputs := rest, v := t.v, written := t.written } ∧
      (∀ b, (t.vreg k).testBit b =
        if 32 * i ≤ b ∧ b < 32 * i + 32 then w.getLsbD (b - 32 * i) else (s.vreg k).testBit b) ∧
      (∀ j, j ≠ k → t.vreg j = s.vreg j) ∧
      (∀ j h, t.wordWritten j h = (s.wordWritten j h || (decide (j = k) && decide (h = i)))) ∧
      (∀ b, b < 4 → byteLane w b = BitVec.ofNat 8 (t.vreg k / 2 ^ (32 * i + 8 * b))) ∧
      (∀ rest', rest = .read (s.par.wordAccess (vOffset k i)) :: rest' → t.fullyWritten k = true →
        step t = .next { t with inputs := rest', rdata := w })

/-- R66, R254: writing all OPW/32 words of n loads n into V[k], fully written, and changes no other register. -/
def Obligations.LoadingEveryWordLoadsRegister : Prop :=
  ∀ (s : State) (k : Reg) (n : Nat) (rest : List Input), s.par.Ok → s.quiescent = true →
    s.vreg k < 2 ^ s.par.opw → n < 2 ^ s.par.opw → s.inputs = loadWrites s.par k n ++ rest →
    ∃ t, runSteps s.par.opwWords s = .next t ∧ t.vreg k = n ∧ t.fullyWritten k = true ∧ t.inputs = rest ∧
      (∀ j, j ≠ k → t.vreg j = s.vreg j ∧ t.fullyWritten j = s.fullyWritten j) ∧
      t.job = s.job ∧ t.status = s.status ∧ t.events = s.events ∧ t.irqen = s.irqen ∧ t.par = s.par

/-- R251 by the second of its treatments (the choice is the model's: log entries 1 and 2): an idle read of any word of a V
register that is not fully written since reset, its written words included, gives a free word, whatever the registers
store, and the next such read takes another draw. -/
def Obligations.UnwrittenWordReadsFree : Prop :=
  ∀ (s : State) (k : Reg) (i : Nat) (rest : List Input), s.par.Ok → s.quiescent = true →
    i < s.par.opwWords → s.fullyWritten k = false →
    s.inputs = .read (s.par.wordAccess (vOffset k i)) :: rest →
    step s = .next { s with inputs := rest, rdata := Config.freeWord s.draws, draws := s.draws + 1 }

/-- R251 by the second of its treatments (the choice is the model's: log entries 1 and 2): a command whose source is not
fully written since reset captures a number made of free words alone, each drawn afresh. -/
def Obligations.UnwrittenSourceIsCapturedFree : Prop :=
  ∀ (s : State) (w : Word) (i : Instr) (rest : List Input), s.quiescent = true → decode w = .legal i →
    s.inputs = .write (s.par.wordAccess 0x008) w :: rest →
    ∃ t, step s = .next t ∧ t.draws = s.draws + 3 * s.par.opwWords ∧
      (s.fullyWritten t.job.ra = false → ∀ h, h < s.par.opwWords →
        wordOf t.job.a h = Config.freeWord (s.draws + h)) ∧
      (s.fullyWritten t.job.rb = false → ∀ h, h < s.par.opwWords →
        wordOf t.job.b h = Config.freeWord (s.draws + s.par.opwWords + h)) ∧
      (s.fullyWritten t.job.rc = false → ∀ h, h < s.par.opwWords →
        wordOf t.job.c h = Config.freeWord (s.draws + 2 * s.par.opwWords + h)) ∧
      (s.RegistersInRange →
        t.job.a < 2 ^ s.par.opw ∧ t.job.b < 2 ^ s.par.opw ∧ t.job.c < 2 ^ s.par.opw)

/-! ## The commands: results, errors and frames -/

/-- R121: MRROUND on n and a in range completes with the verdict of the round in V[RD] and RFLAG. -/
def Obligations.MrroundCompletes : Prop :=
  ∀ (s : State) (rd ra rb : Reg), s.job.a % 2 = 1 → 5 ≤ s.job.a → 2 ≤ s.job.b → s.job.b ≤ s.job.a - 2 →
    ∃ t, exec (.mrround rd ra rb) s = .next t ∧
      CompletesOk [(rd, (mrRound s.job.a s.job.b).toNat)] (mrRound s.job.a s.job.b) false false s t

/-- R121, R216, R217: MRROUND on n even, n < 5, or a outside [2, n - 2] completes in error with MRRANGE. -/
def Obligations.MrroundRangeError : Prop :=
  ∀ (s : State) (rd ra rb : Reg),
    s.job.a % 2 = 0 ∨ s.job.a < 5 ∨ s.job.b < 2 ∨ s.job.a < s.job.b + 2 →
    ∃ t, exec (.mrround rd ra rb) s = .next t ∧ CompletesInError .mrRange s t

/-- R130, R131, R135: PRIMETEST completes with no draw where n ≤ 3 or n is even, by the document's verdicts, and with
verdict 1 where k = 0 and n is odd and at least 5. -/
def Obligations.PrimetestWithoutWitness : Prop :=
  ∀ (s : State) (rd ra : Reg) (k : BitVec 8) (verdict : Bool),
    (s.job.a ≤ 1 ∧ verdict = false) ∨ ((s.job.a = 2 ∨ s.job.a = 3) ∧ verdict = true) ∨
      (4 ≤ s.job.a ∧ s.job.a % 2 = 0 ∧ verdict = false) ∨
      (5 ≤ s.job.a ∧ s.job.a % 2 = 1 ∧ k = 0 ∧ verdict = true) →
    ∃ t, exec (.primetest rd ra k) s = .next t ∧ CompletesOk [(rd, verdict.toNat)] verdict false false s t

/-- R133: a round step of PRIMETEST on an answer in range. A round that fails completes with 0; the last round that
passes completes with 1; an earlier one counts itself and asks for the next witness, changing nothing else. -/
def Obligations.PrimetestRoundStep : Prop :=
  ∀ (s : State) (rd ra : Reg) (k : BitVec 8) (w : Nat), s.job.a % 2 = 1 → 5 ≤ s.job.a →
    s.job.wreq = true → s.job.doneRounds.toNat < k.toNat → s.witness = some w → 2 ≤ w → w ≤ s.job.a - 2 →
    ∃ t, exec (.primetest rd ra k) s = .next t ∧
      (mrRound s.job.a w = false → CompletesOk [(rd, 0)] false false false s t) ∧
      (mrRound s.job.a w = true → s.job.doneRounds.toNat + 1 = k.toNat → CompletesOk [(rd, 1)] true false false s t) ∧
      (mrRound s.job.a w = true → s.job.doneRounds.toNat + 1 < k.toNat →
        t = { s with job.doneRounds := t.job.doneRounds, witness := none } ∧
          t.job.doneRounds.toNat = s.job.doneRounds.toNat + 1)

/-- R137: while a PRIMETEST waits for a witness, nothing but an answer or reset ends the wait: every other input inside
the region, and the Engine's own turn, leaves the command in flight with its record unchanged. Where the
spec says that the Engine has no enabled step, the model's Engine turn, an empty queue included, leaves the state as it
is: that is the model's choice (log entries 4 and 5). -/
def Obligations.PrimetestWaitsForAnswer : Prop :=
  ∀ s : State, s.Inv → s.job.wreq = true →
    (s.inputs = [] → step s = .next s) ∧
    (∀ e rest, s.inputs = e :: rest → (∀ w, e ≠ .answer w) → e ≠ .reset →
      ∀ t, step s = .next t → t.job = s.job ∧ t.busy = true ∧ t.v = s.v)

/-- R130 against R133: from its CMD write on, a PRIMETEST that needs witnesses takes, answer by answer, exactly the
draws its sequential program takes (on fewer of them the program has no verdict yet, and on these it has its own), stays
BUSY until then, and completes with that program's verdict. That the answers come from a queue is the model's choice
(log entries 4 and 5). -/
def Obligations.PrimetestRunsItsProgram : Prop :=
  ∀ (s : State) (rd ra : Reg) (k : BitVec 8) (ws : List Nat) (rest : List Input) (verdict : Bool),
    s.ready (.primetest rd ra k) = true → needsWitness (s.vreg ra) k = true →
    drawsInRange (s.vreg ra) ws = true → primetestProgram (s.vreg ra) k.toNat ws = some verdict →
    s.inputs = .write (s.par.wordAccess 0x008) (encode (.primetest rd ra k)) :: (ws.map Input.answer ++ rest) →
    ∃ j t, j ≤ ws.length ∧ j ≤ k.toNat ∧ runSteps (1 + j) s = .next t ∧ t.quiescent = true ∧
      t.vreg rd = verdict.toNat ∧ t.status.rflag = verdict ∧ t.status.ecode = .none ∧ t.events.done = true ∧
      (∀ r, r ≠ rd → t.vreg r = s.vreg r) ∧ t.inputs = (ws.drop j).map Input.answer ++ rest ∧
      primetestProgram (s.vreg ra) k.toNat (ws.take j) = some verdict ∧
      ∀ h, h < j → primetestProgram (s.vreg ra) k.toNat (ws.take h) = none ∧
        ∃ u, runSteps (1 + h) s = .next u ∧ u.busy = true

/-- R151: MODPOW with a modulus that is not 0 completes with b^e mod m in V[RD]. -/
def Obligations.ModpowCompletes : Prop :=
  ∀ (s : State) (rd ra rb rc : Reg), s.job.c ≠ 0 →
    ∃ t, exec (.modpow rd ra rb rc) s = .next t ∧
      CompletesOk [(rd, s.job.a ^ s.job.b % s.job.c)] false false false s t

/-- R160: MODMUL with a modulus that is not 0 completes with (a · b) mod m in V[RD]. -/
def Obligations.ModmulCompletes : Prop :=
  ∀ (s : State) (rd ra rb rc : Reg), s.job.c ≠ 0 →
    ∃ t, exec (.modmul rd ra rb rc) s = .next t ∧
      CompletesOk [(rd, s.job.a * s.job.b % s.job.c)] false false false s t

/-- R151, R160, R190, R218: MODPOW, MODMUL and MODINV with modulus 0 complete in error with MODZERO, whatever the other
operands. -/
def Obligations.ZeroModulusIsModzero : Prop :=
  ∀ (s : State) (rd ra rb rc : Reg), s.job.c = 0 →
    (∃ t, exec (.modpow rd ra rb rc) s = .next t ∧ CompletesInError .modZero s t) ∧
    (∃ t, exec (.modmul rd ra rb rc) s = .next t ∧ CompletesInError .modZero s t) ∧
    (∃ t, exec (.modinv rd ra rc) s = .next t ∧ CompletesInError .modZero s t)

/-- R181, R183: EGCD completes on all operands, with g, |x|, |y| in its three destinations and the signs in STATUS,
for the triple of R180's recursion. -/
def Obligations.EgcdCompletes : Prop :=
  ∀ (s : State) (rd ra rb rc ry : Reg), (Instr.egcd rd ra rb rc ry).wf = true →
    ∃ t, exec (.egcd rd ra rb rc ry) s = .next t ∧
      CompletesOk
        [(rd, (egcd s.job.a s.job.b).g), (rc, (egcd s.job.a s.job.b).x.natAbs), (ry, (egcd s.job.a s.job.b).y.natAbs)]
        false (decide ((egcd s.job.a s.job.b).x < 0)) (decide ((egcd s.job.a s.job.b).y < 0)) s t ∧
      signedValue t.status.xneg (t.vreg rc) = (egcd s.job.a s.job.b).x ∧
      signedValue t.status.yneg (t.vreg ry) = (egcd s.job.a s.job.b).y

/-- R190, R191: MODINV with n ≥ 1 and gcd(a, n) = 1 completes with the r in [0, n) for which a · r ≡ 1 (mod n). -/
def Obligations.ModinvCompletes : Prop :=
  ∀ (s : State) (rd ra rc : Reg), s.job.c ≠ 0 → Nat.gcd s.job.a s.job.c = 1 →
    ∃ t r, exec (.modinv rd ra rc) s = .next t ∧ CompletesOk [(rd, r)] false false false s t ∧
      r < s.job.c ∧ s.job.a * r ≡ 1 [MOD s.job.c]

/-- R190, R210, R217: MODINV with n ≥ 1 and gcd(a, n) ≠ 1 completes in error with INVUNDEF. -/
def Obligations.ModinvNotCoprimeIsInvundef : Prop :=
  ∀ (s : State) (rd ra rc : Reg), s.job.c ≠ 0 → Nat.gcd s.job.a s.job.c ≠ 1 →
    ∃ t, exec (.modinv rd ra rc) s = .next t ∧ CompletesInError .invUndef s t

/-- R217, R216: a command that completes in error changes no V register: its only effects are STATUS, EVENTS.DONE and
the end of the record, whichever command and whichever error. -/
def Obligations.ErrorsArePrecise : Prop :=
  ∀ (i : Instr) (s t : State), exec i s = .next t → s.status.err = false → t.status.err = true →
    ∃ code, code ≠ .none ∧ CompletesInError code s t

/-- R33, R41: what a command does depends on nothing but the record S and the answer at the Entropy port: from two
states that agree on those, its destinations take the same values and STATUS the same flags, and it leaves the
same record. -/
def Obligations.CommandsReadOnlyTheRecord : Prop :=
  ∀ (i : Instr) (s s' t t' : State), i.wf = true → s.job = s'.job → s.witness = s'.witness →
    exec i s = .next t → exec i s' = .next t' →
    t.job = t'.job ∧
    (t.busy = false → s.busy = true →
      (∀ k, k ∈ i.dests → t.status.err = false → t.vreg k = t'.vreg k) ∧
      { t.status with lastop := 0 } = { t'.status with lastop := 0 })

/-- R33, R152, R160, R182, R190: a command issued with its sources written, then run by the Engine's turn, gives the
mathematical result on the values the source registers held at the CMD write. -/
def Obligations.IssuedCommandsComputeOnRegisters : Prop :=
  ∀ (s : State) (i : Instr) (rest : List Input), s.ready i = true →
    s.inputs = .write (s.par.wordAccess 0x008) (encode i) :: .engine :: rest →
    ∃ t, runSteps 2 s = .next t ∧ t.inputs = rest ∧
      match i with
      | .mrround rd ra rb =>
        t.quiescent = true ∧ (t.status.ecode = .none → t.vreg rd = 0 → ¬(s.vreg ra).Prime) ∧
          ((s.vreg ra).Prime → 5 ≤ s.vreg ra → 2 ≤ s.vreg rb → s.vreg rb ≤ s.vreg ra - 2 →
            t.status.ecode = .none ∧ t.vreg rd = 1)
      | .primetest rd ra k =>
        needsWitness (s.vreg ra) k = false → k ≠ 0 →
          t.quiescent = true ∧ t.vreg rd = (if s.vreg ra = 2 ∨ s.vreg ra = 3 then 1 else 0)
      | .modpow rd ra rb rc =>
        t.quiescent = true ∧ (s.vreg rc ≠ 0 → t.vreg rd = s.vreg ra ^ s.vreg rb % s.vreg rc)
      | .modmul rd ra rb rc =>
        t.quiescent = true ∧ (s.vreg rc ≠ 0 → t.vreg rd = s.vreg ra * s.vreg rb % s.vreg rc)
      | .egcd rd ra rb rc ry =>
        t.quiescent = true ∧ t.vreg rd = Nat.gcd (s.vreg ra) (s.vreg rb) ∧
          (s.vreg ra : Int) * signedValue t.status.xneg (t.vreg rc) +
            (s.vreg rb : Int) * signedValue t.status.yneg (t.vreg ry) = t.vreg rd
      | .modinv rd ra rc =>
        t.quiescent = true ∧ (s.vreg rc ≠ 0 → Nat.gcd (s.vreg ra) (s.vreg rc) = 1 →
          t.vreg rd < s.vreg rc ∧ s.vreg ra * t.vreg rd ≡ 1 [MOD s.vreg rc])

/-! ## The arithmetic -/

/-- R11: for odd n ≥ 3, n - 1 = 2^s · d with s = v2(n - 1) at least 1 and d odd; and 2^v2(m) is the largest power of
two that divides m. -/
def Obligations.TwoAdicSplit : Prop :=
  (∀ m, 1 ≤ m → 2 ^ v2 m ∣ m ∧ ∀ r, 2 ^ r ∣ m → r ≤ v2 m) ∧
  (∀ n, 3 ≤ n → n % 2 = 1 → 1 ≤ v2 (n - 1) ∧ n - 1 = 2 ^ v2 (n - 1) * ((n - 1) / 2 ^ v2 (n - 1)) ∧
    (n - 1) / 2 ^ v2 (n - 1) % 2 = 1)

/-- R152: modpow is b^e mod m for every m ≥ 1, 0^0 = 1 included, and lies in [0, m). -/
def Obligations.ModpowIsPower : Prop :=
  ∀ b e m : Nat, 1 ≤ m → modpow b e m = b ^ e % m ∧ modpow b e m < m

/-- R120, R122: for odd n ≥ 5 a round passes exactly when a^d is 1 modulo n, or one of a^d, a^(2d), …, a^(2^(s-1)d) is
n - 1 modulo n: the early exit never changes the verdict. -/
def Obligations.RoundPassesExactlyBySightings : Prop :=
  ∀ n a : Nat, n % 2 = 1 → 5 ≤ n → 2 ≤ a → a ≤ n - 2 →
    (mrRound n a = true ↔
      a ^ ((n - 1) / 2 ^ v2 (n - 1)) % n = 1 ∨
        ∃ r, r < v2 (n - 1) ∧ a ^ (2 ^ r * ((n - 1) / 2 ^ v2 (n - 1))) % n = n - 1)

/-- R123, R134: a round that gives 0 proves n composite, and every round on a prime gives 1; but a composite may give 1
(2047 with 2); and no PRIMETEST program gives 0 on a prime, for any draws in range. -/
def Obligations.VerdictZeroProvesComposite : Prop :=
  (∀ n a : Nat, n % 2 = 1 → 5 ≤ n → 2 ≤ a → a ≤ n - 2 → mrRound n a = false → ¬n.Prime) ∧
  (∀ n a : Nat, n.Prime → 5 ≤ n → 2 ≤ a → a ≤ n - 2 → mrRound n a = true) ∧
  (mrRound 2047 2 = true ∧ ¬Nat.Prime 2047) ∧
  (∀ (n k : Nat) (ws : List Nat), drawsInRange n ws = true → primetestProgram n k ws = some false → ¬n.Prime)

/-- R182: Bézout's identity, the gcd, and the coefficients of the cases the rule lists. -/
def Obligations.EgcdMeetsItsContract : Prop :=
  (∀ a b : Nat, (a : Int) * (egcd a b).x + (b : Int) * (egcd a b).y = (egcd a b).g ∧
    (egcd a b).g = Nat.gcd a b) ∧
  egcd 0 0 = ⟨0, 0, 1⟩ ∧ (∀ a, 0 < a → egcd a 0 = ⟨a, 1, 0⟩) ∧ (∀ b, 0 < b → egcd 0 b = ⟨b, 0, 1⟩) ∧
  (∀ a, 0 < a → egcd a a = ⟨a, 1, 0⟩)

/-- R180: the base case and the recursion, so that egcd is the rule's function: a = b included. -/
def Obligations.EgcdFollowsItsRecursion : Prop :=
  (∀ b : Nat, egcd 0 b = ⟨b, 0, 1⟩) ∧
  ∀ a b : Nat, 0 < a →
    egcd a b =
      ⟨(egcd (b % a) a).g, (egcd (b % a) a).y - ((b / a : Nat) : Int) * (egcd (b % a) a).x, (egcd (b % a) a).x⟩

/-- R184: the bounds of the coefficients, so that |x| and |y| fit a V register whenever a and b do. -/
def Obligations.EgcdCoefficientsFit : Prop :=
  (∀ a b : Nat, 0 < (egcd a b).g →
    (egcd a b).x.natAbs ≤ max (b / (egcd a b).g) 1 ∧ (egcd a b).y.natAbs ≤ max (a / (egcd a b).g) 1) ∧
  (∀ a b : Nat, (egcd a b).x.natAbs ≤ max (max a b) 1 ∧ (egcd a b).y.natAbs ≤ max (max a b) 1) ∧
  (∀ (p : Params) (a b : Nat), p.Ok → a < 2 ^ p.opw → b < 2 ^ p.opw →
    (egcd a b).x.natAbs < 2 ^ p.opw ∧ (egcd a b).y.natAbs < 2 ^ p.opw)

/-- R191, R193, R194: modinv is undefined exactly when gcd(a, n) ≠ 1; else it is the unique r in [0, n) with
a · r ≡ 1 (mod n), from whichever Bézout coefficient; and for n ≥ 2, (a · r) mod n = 1. -/
def Obligations.ModinvIsTheInverse : Prop :=
  ∀ a n : Nat, 1 ≤ n →
    (modinv a n = none ↔ Nat.gcd a n ≠ 1) ∧
    (∀ r, modinv a n = some r →
      r < n ∧ a * r ≡ 1 [MOD n] ∧ (∀ q, q < n → a * q ≡ 1 [MOD n] → q = r) ∧ (2 ≤ n → a * r % n = 1) ∧
      ∀ x y : Int, (a : Int) * x + n * y = 1 → (r : Int) = x % n)
end

