-- ==== Sys2Proof/Laws/Arith.lean ====
section
/-! SUPPORT. What the loops of the arithmetic compute, at every fuel that is enough. -/

namespace Sys2Proof.Machine

theorem modpowLoop_eq (fuel r p e m : Nat) (h : e < 2 ^ fuel) (hr : r < m) :
    modpowLoop fuel r p e m = r * p ^ e % m := by
  induction fuel generalizing r p e with
  | zero =>
    have : e = 0 := by simpa using h
    subst this; simp [modpowLoop, Nat.mod_eq_of_lt hr]
  | succ fuel ih =>
    simp only [modpowLoop]
    split
    · subst e; simp [Nat.mod_eq_of_lt hr]
    · have hm : 0 < m := by omega
      have h2 : e / 2 < 2 ^ fuel := by rw [pow_succ] at h; omega
      have key : p ^ e = (p * p) ^ (e / 2) * p ^ (e % 2) := by
        rw [← pow_two, ← pow_mul, ← pow_add]; congr 1; omega
      split
      · rename_i ho
        rw [ih _ _ _ h2 (Nat.mod_lt _ hm), key, ho, pow_one,
          show r * ((p * p) ^ (e / 2) * p) = r * p * (p * p) ^ (e / 2) by ring, Nat.mul_mod (r * p % m),
          Nat.mul_mod (r * p)]
        simp [Nat.pow_mod]
      · rename_i ho
        rw [ih _ _ _ h2 hr, key, show e % 2 = 0 by omega, pow_zero, mul_one]
        simp [Nat.mul_mod, Nat.pow_mod]

theorem modpow_lt {b e m : Nat} (hm : 0 < m) : modpow b e m < m := by
  unfold modpow
  split
  · exact hm
  · rw [modpowLoop_eq _ _ _ _ _ Nat.lt_log2_self (by omega)]
    exact Nat.mod_lt _ hm

/-- A longer fuel changes nothing. -/
theorem egcdLoop_fuel (f f' a b : Nat) (h : a < f) (h' : a < f') : egcdLoop f a b = egcdLoop f' a b := by
  induction f generalizing f' a b with
  | zero => omega
  | succ f ih =>
    cases f' with
    | zero => omega
    | succ f' =>
      simp only [egcdLoop]
      split
      · rfl
      · have : b % a < a := Nat.mod_lt _ (by omega)
        rw [ih f' (b % a) a (by omega) (by omega)]

theorem egcd_zero (b : Nat) : egcd 0 b = ⟨b, 0, 1⟩ := rfl

theorem modinv_lt {a n r : Nat} (hn : 0 < n) (h : modinv a n = some r) : r < n := by
  unfold modinv at h
  simp only at h
  split at h
  · cases h
  · cases h
    have := Int.emod_lt_of_pos (egcd a n).x (show (0 : Int) < n by omega)
    omega

end Sys2Proof.Machine
end

