-- ==== Sys2Proof/Laws/Decode.lean ====
section
/-! SUPPORT. The fields of an assembled command word, and a word as its fields (30_encoding.md R90, R95). -/

namespace Sys2Proof

theorem whenZero_legal (ok : Bool) (i j : Instr) : whenZero ok i = .legal j ↔ ok = true ∧ i = j := by
  cases ok <;> simp [whenZero]

theorem nibble_inj (a b : Reg) : nibble a = nibble b ↔ a = b := by revert a b; decide

theorem immLow_toNat (y : Reg) : (0#4 ++ nibble y).toNat = y.val := by revert y; decide

theorem assembleFields_toNat (imm : BitVec 8) (rc rb ra rd : Reg) (opc : BitVec 8) :
    (assembleFields imm rc rb ra rd opc).toNat =
      opc.toNat + 2 ^ 8 * rd.val + 2 ^ 12 * ra.val + 2 ^ 16 * rb.val + 2 ^ 20 * rc.val + 2 ^ 24 * imm.toNat := by
  unfold assembleFields nibble
  simp only [BitVec.toNat_append, BitVec.toNat_ofFin]
  rw [← Nat.shiftLeft_add_eq_or_of_lt opc.isLt, ← Nat.shiftLeft_add_eq_or_of_lt rd.isLt,
    ← Nat.shiftLeft_add_eq_or_of_lt ra.isLt, ← Nat.shiftLeft_add_eq_or_of_lt rb.isLt,
    ← Nat.shiftLeft_add_eq_or_of_lt rc.isLt]
  simp only [Nat.shiftLeft_eq]
  omega

section Fields

variable (imm : BitVec 8) (rc rb ra rd y : Reg) (opc : BitVec 8)

theorem fieldOpc_assemble : fieldOpc (assembleFields imm rc rb ra rd opc) = opc := by
  apply BitVec.eq_of_toNat_eq
  have := opc.isLt; have := imm.isLt; have := rd.isLt; have := ra.isLt; have := rb.isLt; have := rc.isLt
  simp only [fieldOpc, BitVec.extractLsb'_toNat, assembleFields_toNat, Nat.shiftRight_eq_div_pow]
  omega

theorem fieldRd_assemble : fieldRd (assembleFields imm rc rb ra rd opc) = rd := by
  apply Fin.ext
  have := opc.isLt; have := imm.isLt; have := rd.isLt; have := ra.isLt; have := rb.isLt; have := rc.isLt
  simp only [fieldRd, BitVec.val_toFin, BitVec.extractLsb'_toNat, assembleFields_toNat, Nat.shiftRight_eq_div_pow]
  omega

theorem fieldRa_assemble : fieldRa (assembleFields imm rc rb ra rd opc) = ra := by
  apply Fin.ext
  have := opc.isLt; have := imm.isLt; have := rd.isLt; have := ra.isLt; have := rb.isLt; have := rc.isLt
  simp only [fieldRa, BitVec.val_toFin, BitVec.extractLsb'_toNat, assembleFields_toNat, Nat.shiftRight_eq_div_pow]
  omega

theorem fieldRb_assemble : fieldRb (assembleFields imm rc rb ra rd opc) = rb := by
  apply Fin.ext
  have := opc.isLt; have := imm.isLt; have := rd.isLt; have := ra.isLt; have := rb.isLt; have := rc.isLt
  simp only [fieldRb, BitVec.val_toFin, BitVec.extractLsb'_toNat, assembleFields_toNat, Nat.shiftRight_eq_div_pow]
  omega

theorem fieldRc_assemble : fieldRc (assembleFields imm rc rb ra rd opc) = rc := by
  apply Fin.ext
  have := opc.isLt; have := imm.isLt; have := rd.isLt; have := ra.isLt; have := rb.isLt; have := rc.isLt
  simp only [fieldRc, BitVec.val_toFin, BitVec.extractLsb'_toNat, assembleFields_toNat, Nat.shiftRight_eq_div_pow]
  omega

theorem fieldImm_assemble : fieldImm (assembleFields imm rc rb ra rd opc) = imm := by
  apply BitVec.eq_of_toNat_eq
  have := opc.isLt; have := imm.isLt; have := rd.isLt; have := ra.isLt; have := rb.isLt; have := rc.isLt
  simp only [fieldImm, BitVec.extractLsb'_toNat, assembleFields_toNat, Nat.shiftRight_eq_div_pow]
  omega

theorem fieldRy_assemble : fieldRy (assembleFields (0#4 ++ nibble y) rc rb ra rd opc) = y := by
  apply Fin.ext
  have := opc.isLt; have := y.isLt; have := rd.isLt; have := ra.isLt; have := rb.isLt; have := rc.isLt
  simp only [fieldRy, BitVec.val_toFin, BitVec.extractLsb'_toNat, assembleFields_toNat,
    Nat.shiftRight_eq_div_pow, immLow_toNat]
  omega

theorem fieldImmHigh_assemble : fieldImmHigh (assembleFields (0#4 ++ nibble y) rc rb ra rd opc) = 0 := by
  apply BitVec.eq_of_toNat_eq
  have := opc.isLt; have := y.isLt; have := rd.isLt; have := ra.isLt; have := rb.isLt; have := rc.isLt
  simp only [fieldImmHigh, BitVec.extractLsb'_toNat, assembleFields_toNat, Nat.shiftRight_eq_div_pow, immLow_toNat]
  show _ = 0
  omega

end Fields

theorem assembleFields_fields (w : Word) :
    assembleFields (fieldImm w) (fieldRc w) (fieldRb w) (fieldRa w) (fieldRd w) (fieldOpc w) = w := by
  apply BitVec.eq_of_toNat_eq
  rw [assembleFields_toNat]
  have := w.isLt
  simp only [fieldImm, fieldRc, fieldRb, fieldRa, fieldRd, fieldOpc, BitVec.val_toFin, BitVec.extractLsb'_toNat,
    Nat.shiftRight_eq_div_pow]
  omega

theorem fieldImm_of_fieldImmHigh (w : Word) (h : fieldImmHigh w = 0) : fieldImm w = 0#4 ++ nibble (fieldRy w) := by
  apply BitVec.eq_of_toNat_eq
  have h := congrArg BitVec.toNat h
  have := w.isLt
  simp only [fieldImmHigh, fieldImm, fieldRy, nibble, BitVec.extractLsb'_toNat, Nat.shiftRight_eq_div_pow,
    BitVec.toNat_append] at h ⊢
  simp [Nat.shiftRight_eq_div_pow] at h ⊢
  omega

theorem fieldOpc_of_toNat {w : Word} {n : Nat} (h : (fieldOpc w).toNat = n) : fieldOpc w = BitVec.ofNat 8 n := by
  subst h; simp

end Sys2Proof
end

