-- ==== Sys2Proof/Laws/State.lean ====
section
/-! SUPPORT. What each named update leaves in each field of State: one lemma a field, so that no later proof unfolds a
record update. -/

namespace Sys2Proof.Machine

open Sys2Proof

/-! A Host's write of one V word touches the two files of V registers and nothing else. -/

@[simp] theorem State.setVWord_par (s : State) (k : Reg) (i : Nat) (w : Word) :
    (s.setVWord k i w).par = s.par := rfl
@[simp] theorem State.setVWord_v (s : State) (k : Reg) (i : Nat) (w : Word) :
    (s.setVWord k i w).v = s.v.set k.val (setWord (s.vreg k) i w) := rfl
@[simp] theorem State.setVWord_written (s : State) (k : Reg) (i : Nat) (w : Word) :
    (s.setVWord k i w).written = s.written.set k.val (s.written[k.val] ||| BitVec.twoPow 256 i) := rfl
@[simp] theorem State.setVWord_job (s : State) (k : Reg) (i : Nat) (w : Word) :
    (s.setVWord k i w).job = s.job := rfl
@[simp] theorem State.setVWord_status (s : State) (k : Reg) (i : Nat) (w : Word) :
    (s.setVWord k i w).status = s.status := rfl
@[simp] theorem State.setVWord_events (s : State) (k : Reg) (i : Nat) (w : Word) :
    (s.setVWord k i w).events = s.events := rfl
@[simp] theorem State.setVWord_irqen (s : State) (k : Reg) (i : Nat) (w : Word) :
    (s.setVWord k i w).irqen = s.irqen := rfl
@[simp] theorem State.setVWord_rdata (s : State) (k : Reg) (i : Nat) (w : Word) :
    (s.setVWord k i w).rdata = s.rdata := rfl
@[simp] theorem State.setVWord_witness (s : State) (k : Reg) (i : Nat) (w : Word) :
    (s.setVWord k i w).witness = s.witness := rfl
@[simp] theorem State.setVWord_draws (s : State) (k : Reg) (i : Nat) (w : Word) :
    (s.setVWord k i w).draws = s.draws := rfl
@[simp] theorem State.setVWord_inputs (s : State) (k : Reg) (i : Nat) (w : Word) :
    (s.setVWord k i w).inputs = s.inputs := rfl

/-! A dropped write touches EVENTS alone (R67). -/

@[simp] theorem overrun_par (s : State) : (overrun s).par = s.par := rfl
@[simp] theorem overrun_v (s : State) : (overrun s).v = s.v := rfl
@[simp] theorem overrun_written (s : State) : (overrun s).written = s.written := rfl
@[simp] theorem overrun_job (s : State) : (overrun s).job = s.job := rfl
@[simp] theorem overrun_status (s : State) : (overrun s).status = s.status := rfl
@[simp] theorem overrun_events (s : State) : (overrun s).events = { s.events with ovr := true } := rfl
@[simp] theorem overrun_irqen (s : State) : (overrun s).irqen = s.irqen := rfl
@[simp] theorem overrun_rdata (s : State) : (overrun s).rdata = s.rdata := rfl
@[simp] theorem overrun_witness (s : State) : (overrun s).witness = s.witness := rfl
@[simp] theorem overrun_draws (s : State) : (overrun s).draws = s.draws := rfl
@[simp] theorem overrun_inputs (s : State) : (overrun s).inputs = s.inputs := rfl

/-! A successful completion, field by field (R215). -/

@[simp] theorem completeOk_par (writes : List (Reg × Nat)) (r x y : Bool) (s : State) :
    (completeOk writes r x y s).par = s.par := rfl
@[simp] theorem completeOk_v (writes : List (Reg × Nat)) (r x y : Bool) (s : State) :
    (completeOk writes r x y s).v = writeAll s.v writes := rfl
@[simp] theorem completeOk_written (writes : List (Reg × Nat)) (r x y : Bool) (s : State) :
    (completeOk writes r x y s).written = markAll s.written writes := rfl
@[simp] theorem completeOk_job (writes : List (Reg × Nat)) (r x y : Bool) (s : State) :
    (completeOk writes r x y s).job = { s.job with valid := false, wreq := false } := rfl
@[simp] theorem completeOk_status (writes : List (Reg × Nat)) (r x y : Bool) (s : State) :
    (completeOk writes r x y s).status = s.status.completedOk r x y := rfl
@[simp] theorem completeOk_events (writes : List (Reg × Nat)) (r x y : Bool) (s : State) :
    (completeOk writes r x y s).events = { s.events with done := true } := rfl
@[simp] theorem completeOk_irqen (writes : List (Reg × Nat)) (r x y : Bool) (s : State) :
    (completeOk writes r x y s).irqen = s.irqen := rfl
@[simp] theorem completeOk_rdata (writes : List (Reg × Nat)) (r x y : Bool) (s : State) :
    (completeOk writes r x y s).rdata = s.rdata := rfl
@[simp] theorem completeOk_witness (writes : List (Reg × Nat)) (r x y : Bool) (s : State) :
    (completeOk writes r x y s).witness = none := rfl
@[simp] theorem completeOk_draws (writes : List (Reg × Nat)) (r x y : Bool) (s : State) :
    (completeOk writes r x y s).draws = s.draws := rfl
@[simp] theorem completeOk_inputs (writes : List (Reg × Nat)) (r x y : Bool) (s : State) :
    (completeOk writes r x y s).inputs = s.inputs := rfl

/-! A completion in error, field by field (R216). -/

@[simp] theorem completeError_par (code : ErrCode) (s : State) : (completeError code s).par = s.par := rfl
@[simp] theorem completeError_v (code : ErrCode) (s : State) : (completeError code s).v = s.v := rfl
@[simp] theorem completeError_written (code : ErrCode) (s : State) :
    (completeError code s).written = s.written := rfl
@[simp] theorem completeError_job (code : ErrCode) (s : State) :
    (completeError code s).job = { s.job with valid := false, wreq := false } := rfl
@[simp] theorem completeError_status (code : ErrCode) (s : State) :
    (completeError code s).status = s.status.completedError code := rfl
@[simp] theorem completeError_events (code : ErrCode) (s : State) :
    (completeError code s).events = { s.events with done := true } := rfl
@[simp] theorem completeError_irqen (code : ErrCode) (s : State) : (completeError code s).irqen = s.irqen := rfl
@[simp] theorem completeError_rdata (code : ErrCode) (s : State) : (completeError code s).rdata = s.rdata := rfl
@[simp] theorem completeError_witness (code : ErrCode) (s : State) : (completeError code s).witness = none := rfl
@[simp] theorem completeError_draws (code : ErrCode) (s : State) : (completeError code s).draws = s.draws := rfl
@[simp] theorem completeError_inputs (code : ErrCode) (s : State) : (completeError code s).inputs = s.inputs := rfl

/-! Acceptance of a legal word, field by field (R212). -/

@[simp] theorem acceptLegal_par (w : Word) (s : State) : (acceptLegal w s).par = s.par := rfl
@[simp] theorem acceptLegal_v (w : Word) (s : State) : (acceptLegal w s).v = s.v := rfl
@[simp] theorem acceptLegal_written (w : Word) (s : State) : (acceptLegal w s).written = s.written := rfl
@[simp] theorem acceptLegal_job (w : Word) (s : State) : (acceptLegal w s).job = acceptedJob w s := rfl
@[simp] theorem acceptLegal_status (w : Word) (s : State) :
    (acceptLegal w s).status = Status.accepted (fieldOpc w) .none := rfl
@[simp] theorem acceptLegal_events (w : Word) (s : State) : (acceptLegal w s).events = s.events := rfl
@[simp] theorem acceptLegal_irqen (w : Word) (s : State) : (acceptLegal w s).irqen = s.irqen := rfl
@[simp] theorem acceptLegal_rdata (w : Word) (s : State) : (acceptLegal w s).rdata = s.rdata := rfl
@[simp] theorem acceptLegal_witness (w : Word) (s : State) : (acceptLegal w s).witness = s.witness := rfl
@[simp] theorem acceptLegal_draws (w : Word) (s : State) :
    (acceptLegal w s).draws = s.draws + 3 * s.par.opwWords := rfl
@[simp] theorem acceptLegal_inputs (w : Word) (s : State) : (acceptLegal w s).inputs = s.inputs := rfl

/-! Acceptance of an ILLEGAL word, field by field (R213). -/

@[simp] theorem acceptIllegal_par (w : Word) (s : State) : (acceptIllegal w s).par = s.par := rfl
@[simp] theorem acceptIllegal_v (w : Word) (s : State) : (acceptIllegal w s).v = s.v := rfl
@[simp] theorem acceptIllegal_written (w : Word) (s : State) : (acceptIllegal w s).written = s.written := rfl
@[simp] theorem acceptIllegal_job (w : Word) (s : State) : (acceptIllegal w s).job = s.job := rfl
@[simp] theorem acceptIllegal_status (w : Word) (s : State) :
    (acceptIllegal w s).status = Status.accepted (fieldOpc w) .illegal := rfl
@[simp] theorem acceptIllegal_events (w : Word) (s : State) :
    (acceptIllegal w s).events = { s.events with done := true } := rfl
@[simp] theorem acceptIllegal_irqen (w : Word) (s : State) : (acceptIllegal w s).irqen = s.irqen := rfl
@[simp] theorem acceptIllegal_rdata (w : Word) (s : State) : (acceptIllegal w s).rdata = s.rdata := rfl
@[simp] theorem acceptIllegal_witness (w : Word) (s : State) : (acceptIllegal w s).witness = s.witness := rfl
@[simp] theorem acceptIllegal_draws (w : Word) (s : State) : (acceptIllegal w s).draws = s.draws := rfl
@[simp] theorem acceptIllegal_inputs (w : Word) (s : State) : (acceptIllegal w s).inputs = s.inputs := rfl

/-! The reset input, field by field (R250, R251). -/

@[simp] theorem resetInput_par (s : State) : (resetInput s).par = s.par := rfl
@[simp] theorem resetInput_v (s : State) : (resetInput s).v = Vector.replicate 16 0 := rfl
@[simp] theorem resetInput_written (s : State) : (resetInput s).written = Vector.replicate 16 0 := rfl
@[simp] theorem resetInput_job (s : State) : (resetInput s).job = Job.idle := rfl
@[simp] theorem resetInput_status (s : State) :
    (resetInput s).status = { err := false, rflag := false, xneg := false, yneg := false, ecode := .none, lastop := 0 } := rfl
@[simp] theorem resetInput_events (s : State) : (resetInput s).events = { done := false, ovr := false } := rfl
@[simp] theorem resetInput_irqen (s : State) : (resetInput s).irqen = { doneIe := false, ovrIe := false } := rfl
@[simp] theorem resetInput_rdata (s : State) : (resetInput s).rdata = 0 := rfl
@[simp] theorem resetInput_witness (s : State) : (resetInput s).witness = none := rfl
@[simp] theorem resetInput_draws (s : State) : (resetInput s).draws = s.draws := rfl
@[simp] theorem resetInput_inputs (s : State) : (resetInput s).inputs = s.inputs := rfl

/-! The queue is no part of what the named views of a state read. -/

@[simp] theorem vreg_inputs (s : State) (q : List Input) (k : Reg) : { s with inputs := q }.vreg k = s.vreg k := rfl
@[simp] theorem wordWritten_inputs (s : State) (q : List Input) (k : Reg) (i : Nat) :
    { s with inputs := q }.wordWritten k i = s.wordWritten k i := rfl
@[simp] theorem fullyWritten_inputs (s : State) (q : List Input) (k : Reg) :
    { s with inputs := q }.fullyWritten k = s.fullyWritten k := rfl
@[simp] theorem busy_inputs (s : State) (q : List Input) : { s with inputs := q }.busy = s.busy := rfl

end Sys2Proof.Machine
end

