-- ==== Sys2Proof/Laws/Operands.lean ====
section
/-! SUPPORT. What reading and writing the words of an operand register do, bit by bit, and what the writes of a
completion do, register by register. -/

namespace Sys2Proof.Machine

open Sys2Proof

/-! Words of a number (20_memory.md R60, R66). -/

theorem wordOf_getLsbD (v i b : Nat) :
    (wordOf v i).getLsbD b = (decide (b < 32) && v.testBit (32 * i + b)) := by
  simp [wordOf, BitVec.getLsbD_ofNat, Nat.testBit_div_two_pow, Nat.add_comm]

theorem setWord_testBit (v i : Nat) (w : Word) (b : Nat) :
    (setWord v i w).testBit b =
      if 32 * i ≤ b ∧ b < 32 * i + 32 then w.getLsbD (b - 32 * i) else v.testBit b := by
  have hw : w.toNat < 2 ^ 32 := w.isLt
  have hlow : w.toNat * 2 ^ (32 * i) + v % 2 ^ (32 * i) < 2 ^ (32 * (i + 1)) := by
    have hv : v % 2 ^ (32 * i) < 2 ^ (32 * i) := Nat.mod_lt _ (by positivity)
    have e : (2 : Nat) ^ (32 * (i + 1)) = 2 ^ 32 * 2 ^ (32 * i) := by rw [← pow_add]; congr 1; ring
    have h := Nat.mul_le_mul_right (2 ^ (32 * i)) (Nat.le_sub_one_of_lt hw)
    rw [Nat.sub_mul] at h
    have h2 : 2 ^ (32 * i) ≤ 2 ^ 32 * 2 ^ (32 * i) := Nat.le_mul_of_pos_left _ (by norm_num)
    rw [e]; omega
  have e1 : setWord v i w =
      2 ^ (32 * (i + 1)) * (v / 2 ^ (32 * (i + 1))) + (2 ^ (32 * i) * w.toNat + v % 2 ^ (32 * i)) := by
    unfold setWord; ring
  rw [e1, Nat.testBit_two_pow_mul_add _ (by rw [Nat.mul_comm]; exact hlow),
    Nat.testBit_two_pow_mul_add _ (Nat.mod_lt _ (by positivity))]
  by_cases h1 : b < 32 * i
  · simp [h1, show ¬ 32 * i ≤ b by omega, show b < 32 * (i + 1) by omega, Nat.testBit_mod_two_pow]
  · by_cases h2 : b < 32 * (i + 1)
    · simp [h1, h2, show 32 * i ≤ b by omega, show b < 32 * i + 32 by omega, BitVec.getLsbD]
    · simp [h2, show ¬ b < 32 * i + 32 by omega, Nat.testBit_div_two_pow]
      congr 1; omega

theorem setWord_lt {v i n : Nat} {w : Word} (hi : i < n) (hv : v < 2 ^ (32 * n)) :
    setWord v i w < 2 ^ (32 * n) := by
  apply Nat.lt_pow_two_of_testBit
  intro b hb
  rw [setWord_testBit, if_neg (by omega)]
  exact Nat.testBit_eq_false_of_lt (lt_of_lt_of_le hv (Nat.pow_le_pow_right (by omega) hb))

theorem wordOf_setWord (v i : Nat) (w : Word) : wordOf (setWord v i w) i = w := by
  apply BitVec.eq_of_getLsbD_eq
  intro b hb
  rw [wordOf_getLsbD, setWord_testBit]
  simp [hb]

theorem assemble_lt (n : Nat) (f : Nat → Word) : assemble n f < 2 ^ (32 * n) := by
  induction n with
  | zero => simp [assemble]
  | succ n ih =>
    have e : (2 : Nat) ^ (32 * (n + 1)) = 2 ^ 32 * 2 ^ (32 * n) := by rw [← pow_add]; congr 1; ring
    have h := Nat.mul_le_mul_right (2 ^ (32 * n)) (Nat.le_sub_one_of_lt (f n).isLt)
    rw [Nat.sub_mul] at h
    have h2 : 2 ^ (32 * n) ≤ 2 ^ 32 * 2 ^ (32 * n) := Nat.le_mul_of_pos_left _ (by norm_num)
    simp only [assemble]
    rw [e]; omega

theorem assemble_testBit (n : Nat) (f : Nat → Word) (b : Nat) :
    (assemble n f).testBit b = (decide (b < 32 * n) && (f (b / 32)).getLsbD (b % 32)) := by
  induction n with
  | zero => simp [assemble]
  | succ n ih =>
    have e : assemble (n + 1) f = 2 ^ (32 * n) * (f n).toNat + assemble n f := by simp only [assemble]; ring
    rw [e, Nat.testBit_two_pow_mul_add _ (assemble_lt n f), ih]
    by_cases h : b < 32 * n
    · simp [h, show b < 32 * (n + 1) by omega]
    · rw [if_neg h, show (f n).toNat.testBit (b - 32 * n) = (f n).getLsbD (b - 32 * n) from rfl]
      by_cases h2 : b < 32 * (n + 1)
      · rw [show b / 32 = n by omega, show b % 32 = b - 32 * n by omega]; simp [h2]
      · rw [BitVec.getLsbD_of_ge _ _ (by omega)]; simp [h2]

theorem wordOf_assemble {n i : Nat} (f : Nat → Word) (hi : i < n) : wordOf (assemble n f) i = f i := by
  apply BitVec.eq_of_getLsbD_eq
  intro b hb
  rw [wordOf_getLsbD, assemble_testBit, show (32 * i + b) / 32 = i by omega, show (32 * i + b) % 32 = b by omega]
  simp [hb, show 32 * i + b < 32 * n by omega]

/-! The values a command captures (10_state.md R33). -/

theorem sourceValue_of_fullyWritten {s : State} {k : Reg} (d : Nat) (h : s.fullyWritten k = true) :
    s.sourceValue k d = s.vreg k := if_pos h

theorem sourceValue_of_not_fullyWritten {s : State} {k : Reg} (d : Nat) (h : s.fullyWritten k = false) :
    s.sourceValue k d = s.par.unknownValue d := if_neg (by rw [h]; decide)

theorem wordOf_unknownValue (p : Params) (d : Nat) {i : Nat} (hi : i < p.opwWords) :
    wordOf (p.unknownValue d) i = Config.freeWord (d + i) := wordOf_assemble _ hi

theorem sourceValue_lt {s : State} {k : Reg} (d : Nat) (h : s.vreg k < 2 ^ s.par.opw) :
    s.sourceValue k d < 2 ^ s.par.opw := by
  unfold State.sourceValue
  split
  · exact h
  · exact assemble_lt _ _

/-! A Host's write of one V word, seen from every register (20_memory.md R66). -/

theorem vreg_setVWord (s : State) (k j : Reg) (i : Nat) (w : Word) :
    (s.setVWord k i w).vreg j = if j = k then setWord (s.vreg k) i w else s.vreg j := by
  by_cases h : j = k
  · subst h; simp [State.vreg, State.setVWord]
  · have : k.val ≠ j.val := fun e => h (Fin.ext e.symm)
    simp [State.vreg, State.setVWord, this, h]

theorem wordWritten_setVWord (s : State) (k j : Reg) (i h : Nat) (w : Word) (hi : i < 256) :
    (s.setVWord k i w).wordWritten j h = (s.wordWritten j h || (decide (j = k) && decide (h = i))) := by
  by_cases e : j = k
  · subst e
    simp only [State.wordWritten, State.setVWord, Vector.getElem_set_self, BitVec.getLsbD_or,
      BitVec.getLsbD_twoPow]
    by_cases h2 : h = i
    · simp [h2, hi]
    · simp [h2, Ne.symm h2]
  · have : k.val ≠ j.val := fun e' => e (Fin.ext e'.symm)
    simp [State.wordWritten, State.setVWord, this, e]

/-! The writes of a completion, seen from every register (60_exceptions.md R215). -/

theorem getElem_writeAll_of_not_mem (writes : List (Reg × Nat)) (v : Vector Nat 16) (k : Reg)
    (h : k ∉ writes.map Prod.fst) : (writeAll v writes)[k.val] = v[k.val] := by
  induction writes generalizing v with
  | nil => rfl
  | cons kx rest ih =>
    simp only [List.map_cons, List.mem_cons, not_or] at h
    simp only [writeAll, List.foldl_cons] at ih ⊢
    rw [ih _ h.2, Vector.getElem_set_ne _ _ (fun e => h.1 (Fin.ext e.symm))]

theorem getElem_writeAll_of_mem (writes : List (Reg × Nat)) (v : Vector Nat 16) (k : Reg) (x : Nat)
    (hn : (writes.map Prod.fst).Nodup) (h : (k, x) ∈ writes) : (writeAll v writes)[k.val] = x := by
  induction writes generalizing v with
  | nil => cases h
  | cons kx rest ih =>
    simp only [List.map_cons, List.nodup_cons] at hn
    rcases List.mem_cons.1 h with h | h
    · have := getElem_writeAll_of_not_mem rest (v.set kx.1.val kx.2) kx.1 hn.1
      subst h
      simp only [writeAll, List.foldl_cons] at this ⊢
      rw [this]; simp
    · simpa only [writeAll, List.foldl_cons] using ih (v.set kx.1.val kx.2) hn.2 h

/-- What holds of every old value and of every written one holds of every new value. -/
theorem forall_getElem_writeAll {P : Nat → Prop} (writes : List (Reg × Nat)) (v : Vector Nat 16)
    (hw : ∀ k x, (k, x) ∈ writes → P x) (hv : ∀ k : Reg, P v[k.val]) (k : Reg) :
    P (writeAll v writes)[k.val] := by
  induction writes generalizing v with
  | nil => exact hv k
  | cons kx rest ih =>
    refine ih (v.set kx.1.val kx.2) (fun k x h => hw k x (List.mem_cons_of_mem _ h)) (fun j => ?_)
    rw [Vector.getElem_set]
    split
    · exact hw kx.1 kx.2 List.mem_cons_self
    · exact hv j

theorem getElem_markAll_of_not_mem (writes : List (Reg × Nat)) (m : Vector (BitVec 256) 16) (k : Reg)
    (h : k ∉ writes.map Prod.fst) : (markAll m writes)[k.val] = m[k.val] := by
  induction writes generalizing m with
  | nil => rfl
  | cons kx rest ih =>
    simp only [List.map_cons, List.mem_cons, not_or] at h
    simp only [markAll, List.foldl_cons] at ih ⊢
    rw [ih _ h.2, Vector.getElem_set_ne _ _ (fun e => h.1 (Fin.ext e.symm))]

theorem getElem_markAll_of_mem (writes : List (Reg × Nat)) (m : Vector (BitVec 256) 16) (k : Reg)
    (h : k ∈ writes.map Prod.fst) : (markAll m writes)[k.val] = BitVec.allOnes 256 := by
  induction writes generalizing m with
  | nil => cases h
  | cons kx rest ih =>
    by_cases hr : k ∈ rest.map Prod.fst
    · simpa only [markAll, List.foldl_cons] using ih (m.set kx.1.val _) hr
    · have hk : k = kx.1 := by simpa [hr] using h
      have := getElem_markAll_of_not_mem rest (m.set kx.1.val (BitVec.allOnes 256)) k hr
      simp only [markAll, List.foldl_cons] at this ⊢
      rw [this, hk]; simp

end Sys2Proof.Machine
end

