-- ==== Sys2Proof/Laws/Ops.lean ====
section
/-! SUPPORT. One lemma for each named operation of the block that says everything it can do: the completions,
acceptance, and the bus. -/

namespace Sys2Proof.Machine

open Sys2Proof

/-! Completions (60_exceptions.md R215, R216). -/

theorem completeOk_completesOk (writes : List (Reg × Nat)) (r x y : Bool) (s : State)
    (hn : (writes.map Prod.fst).Nodup) : CompletesOk writes r x y s (completeOk writes r x y s) where
  frame := {
    vreg := fun k hk => getElem_writeAll_of_not_mem writes s.v k hk
    wordWritten := fun k hk i => congrArg (·.getLsbD i) (getElem_markAll_of_not_mem writes s.written k hk)
    irqen := rfl, ovr := rfl, lastop := rfl, par := rfl, rdata := rfl, draws := rfl, inputs := rfl, record := rfl }
  value := fun k v hv => ⟨getElem_writeAll_of_mem writes s.v k v hn hv, fun i hi => by
    have := getElem_markAll_of_mem writes s.written k (List.mem_map.2 ⟨(k, v), hv, rfl⟩)
    rw [State.wordWritten, completeOk_written, this, BitVec.getLsbD_allOnes]; simpa using hi⟩
  status := rfl
  quiescent := rfl
  request := rfl
  done := rfl
  port := rfl

theorem completeError_completesInError (code : ErrCode) (s : State) :
    CompletesInError code s (completeError code s) where
  frame := {
    vreg := fun _ _ => rfl, wordWritten := fun _ _ _ => rfl, irqen := rfl, ovr := rfl, lastop := rfl, par := rfl
    rdata := rfl, draws := rfl, inputs := rfl, record := rfl }
  status := rfl
  quiescent := rfl
  request := rfl
  done := rfl
  port := rfl

/-! Acceptance (60_exceptions.md R211 to R213). -/

theorem accept_cases (w : Word) (s : State) :
    (∃ i, decode w = .legal i ∧ accept w s = acceptLegal w s) ∨
      ∃ why, decode w = .illegal why ∧ accept w s = acceptIllegal w s := by
  unfold accept
  split
  · exact .inl ⟨_, ‹_›, rfl⟩
  · exact .inr ⟨_, ‹_›, rfl⟩

/-- The record that acceptance makes holds the command that the word decodes to. -/
theorem command_acceptedJob {w : Word} {i : Instr} (s : State) (h : decode w = .legal i) :
    (acceptedJob w s).command? = some i := by
  unfold decode at h
  unfold Job.command?
  have hopc : (acceptedJob w s).opc.toNat = (fieldOpc w).toNat := rfl
  split at h <;> rename_i ho <;> try rw [hopc, ho]
  · obtain ⟨_, rfl⟩ := (whenZero_legal _ _ _).1 h; rfl
  · obtain ⟨_, rfl⟩ := (whenZero_legal _ _ _).1 h; rfl
  · obtain ⟨_, rfl⟩ := (whenZero_legal _ _ _).1 h; rfl
  · obtain ⟨_, rfl⟩ := (whenZero_legal _ _ _).1 h; rfl
  · split at h
    · split at h
      · cases h; rfl
      · cases h
    · cases h
  · obtain ⟨_, rfl⟩ := (whenZero_legal _ _ _).1 h; rfl
  · cases h

/-- The word that the record was filled from is the word accepted. -/
theorem word_acceptedJob (w : Word) (s : State) : (acceptedJob w s).word = w := assembleFields_fields w

/-- Which opcode a record with a given command holds. -/
theorem opc_of_command {j : Job} {i : Instr} (h : j.command? = some i) :
    (∀ rd ra rb, i = .mrround rd ra rb → j.opc = 1) ∧
      (∀ rd ra k, i = .primetest rd ra k → j.opc = 2 ∧ k = j.imm) ∧
      (∀ rd ra rb rc ry, i = .egcd rd ra rb rc ry → j.opc = 5) ∧
      (j.opc = 2 → ∃ rd ra, i = .primetest rd ra j.imm) := by
  have opc : ∀ n, j.opc.toNat = n → j.opc = BitVec.ofNat 8 n := fun n h => by subst h; simp
  unfold Job.command? at h
  split at h <;> rename_i ho <;>
    first | (cases h; rw [opc _ ho]; refine ⟨?_, ?_, ?_, ?_⟩ <;> simp_all) | cases h

/-! The register map (10_state.md R20; 20_memory.md R60). -/

theorem vOffset_lt (k : Reg) {i : Nat} (h : i < 256) : vOffset k i < 0x5000 := by
  have := k.isLt; unfold vOffset; omega

theorem vOffset_aligned (k : Reg) (i : Nat) : vOffset k i % 4 = 0 := by unfold vOffset; omega

theorem placeOf_vOffset (n : Nat) (k : Reg) {i : Nat} (h : i < 256) :
    placeOf n (vOffset k i) = if i < n then .vword k i else .reserved := by
  have hk := k.isLt
  have e1 : ¬ vOffset k i < 0x1000 := by unfold vOffset; omega
  have e2 : vOffset k i % 0x400 / 4 = i := by unfold vOffset; omega
  have e3 : Fin.ofNat 16 ((vOffset k i - 0x1000) / 0x400) = k := by
    apply Fin.ext; simp [Fin.ofNat]; unfold vOffset; omega
  simp only [placeOf, e1, if_false, e2, e3]

theorem placeOf_vword {n off : Nat} {k : Reg} {i : Nat} (h : placeOf n off = .vword k i) (ho : off < 0x5000) :
    i < n ∧ i < 256 ∧ 0x1000 + 0x400 * k.val ≤ off ∧ off < 0x1400 + 0x400 * k.val := by
  unfold placeOf at h
  split at h
  · split at h <;> cases h
  · simp only at h
    split at h
    · cases h
      simp [Fin.ofNat]
      omega
    · cases h

theorem placeOf_cmd {n off : Nat} (h : placeOf n off = .cmd) : off = 0x008 := by
  unfold placeOf at h
  split at h
  · split at h <;> simp_all
  · simp only at h; split at h <;> simp_all

theorem placeOf_events {n off : Nat} (h : placeOf n off = .events) : off = 0x010 := by
  unfold placeOf at h
  split at h
  · split at h <;> simp_all
  · simp only at h; split at h <;> simp_all

theorem offset?_wordAccess (p : Params) {off : Nat} (h : off < 0x5000) :
    p.offset? (p.wordAccess off).addr = some off := by
  simp [Params.offset?, Params.wordAccess, h]

theorem offset?_eq_some {p : Params} {a off : Nat} (h : p.offset? a = some off) : off < 0x5000 ∧ a = p.base + off := by
  unfold Params.offset? at h
  split at h
  · simp at h; omega
  · cases h

theorem offset?_eq_none {p : Params} {a : Nat} (h : p.offset? a = none) : ¬(p.base ≤ a ∧ a < p.base + 0x5000) := by
  unfold Params.offset? at h
  split at h
  · cases h
  · assumption

/-! The bus (20_memory.md R62 to R69). -/

theorem perform_write_word (s : State) {off : Nat} (w : Word) (h : off < 0x5000) (ha : off % 4 = 0) :
    perform (.write (s.par.wordAccess off) w) s = .next (busWriteWord off w s) := by
  simp only [perform, offset?_wordAccess s.par h]
  simp [Params.wordAccess, busWrite, wholeWord, ha]

theorem perform_read_word (s : State) {off : Nat} (h : off < 0x5000) (ha : off % 4 = 0) :
    perform (.read (s.par.wordAccess off)) s = .next (busReadWord off s) := by
  simp only [perform, offset?_wordAccess s.par h]
  simp [Params.wordAccess, busRead, wholeWord, ha]

theorem busWriteWord_vOffset (s : State) (k : Reg) {i : Nat} (w : Word) (hi : i < 256) :
    busWriteWord (vOffset k i) w s =
      if i < s.par.opwWords then (if s.busy = true then overrun s else s.setVWord k i w) else s := by
  unfold busWriteWord
  rw [placeOf_vOffset _ _ hi]
  split <;> rename_i h <;> split at h <;> simp_all

theorem busReadWord_vOffset (s : State) (k : Reg) {i : Nat} (hi : i < 256) :
    busReadWord (vOffset k i) s = if i < s.par.opwWords then readVWord k i s else { s with rdata := 0 } := by
  unfold busReadWord
  rw [placeOf_vOffset _ _ hi]
  split <;> rename_i h <;> split at h <;> simp_all

/-- Everything a write inside the region can do. -/
theorem busWrite_cases (off : Nat) (lanes : BitVec 4) (w : Word) (s : State) :
    busWrite off lanes w s = s ∨
    (s.busy = true ∧ busWrite off lanes w s = overrun s) ∨
    (s.busy = false ∧ off = 0x008 ∧ lanes = 0xF ∧ busWrite off lanes w s = accept w s) ∨
    (off = 0x010 ∧ lanes = 0xF ∧ busWrite off lanes w s = { s with events := s.events.w1c w }) ∨
    busWrite off lanes w s = { s with irqen := irqenOf w } ∨
    (s.busy = false ∧ ∃ k i, placeOf s.par.opwWords off = .vword k i ∧ busWrite off lanes w s = s.setVWord k i w) := by
  unfold busWrite
  split
  · rename_i hw
    unfold busWriteWord
    split
    all_goals try (left; rfl)
    · rename_i hp
      have := placeOf_cmd hp
      split
      · right; left; simp_all
      · right; right; left
        simp only [wholeWord, Bool.and_eq_true, beq_iff_eq] at hw
        simp_all
    · rename_i hp
      simp only [wholeWord, Bool.and_eq_true, beq_iff_eq] at hw
      exact .inr (.inr (.inr (.inl ⟨placeOf_events hp, hw.2, rfl⟩)))
    · right; right; right; right; left; rfl
    · rename_i k i hp
      split
      · right; left; simp_all
      · right; right; right; right; right; exact ⟨by simp_all, k, i, hp, rfl⟩
  · left; rfl

/-- Everything a read inside the region can do. -/
theorem busRead_cases (off : Nat) (lanes : BitVec 4) (s : State) :
    (∃ x, busRead off lanes s = { s with rdata := x }) ∨
      ∃ k i, s.busy = false ∧ s.fullyWritten k = false ∧ placeOf s.par.opwWords off = .vword k i ∧
        busRead off lanes s = { s with rdata := Config.freeWord s.draws, draws := s.draws + 1 } := by
  unfold busRead busReadWord
  split
  · split
    case h_7 k i hp =>
      unfold readVWord
      split
      · exact .inl ⟨_, rfl⟩
      · split
        · exact .inl ⟨_, rfl⟩
        · exact .inr ⟨k, i, by simp_all, by simp_all, hp, rfl⟩
    all_goals exact .inl ⟨_, rfl⟩
  · exact .inl ⟨_, rfl⟩

end Sys2Proof.Machine
end

