-- ==== Sys2Proof/Laws/PerInstr.lean ====
section
/-! SUPPORT. What holds of each command as syntax, one lemma for each constructor: its word holds its row's opcode,
and its destinations differ exactly when it is well formed. -/

namespace Sys2Proof

/-- The OPC field of the command's word is the low byte of its row's pattern (30_encoding.md R99), and the command is
well formed exactly when its destinations differ pairwise (R98). -/
def Laws.CommandShape.Statement (i : Instr) : Prop :=
  (∀ r, r ∈ opcodeMap → r.mnemonic = i.mnemonic → fieldOpc (encode i) = r.pattern.extractLsb' 0 8) ∧
    (i.wf = true ↔ i.dests.Nodup)

theorem Laws.CommandShape.mrround (rd ra rb : Reg) : Laws.CommandShape.Statement (.mrround rd ra rb) := by
  refine ⟨fun r hr hm => ?_, by simp [Instr.wf, Instr.dests]⟩
  rw [encode, fieldOpc_assemble]
  fin_cases hr <;> first | rfl | exact absurd hm (by decide : ¬ _ = "MRROUND")

theorem Laws.CommandShape.primetest (rd ra : Reg) (k : BitVec 8) :
    Laws.CommandShape.Statement (.primetest rd ra k) := by
  refine ⟨fun r hr hm => ?_, by simp [Instr.wf, Instr.dests]⟩
  rw [encode, fieldOpc_assemble]
  fin_cases hr <;> first | rfl | exact absurd hm (by decide : ¬ _ = "PRIMETEST")

theorem Laws.CommandShape.modpow (rd ra rb rc : Reg) : Laws.CommandShape.Statement (.modpow rd ra rb rc) := by
  refine ⟨fun r hr hm => ?_, by simp [Instr.wf, Instr.dests]⟩
  rw [encode, fieldOpc_assemble]
  fin_cases hr <;> first | rfl | exact absurd hm (by decide : ¬ _ = "MODPOW")

theorem Laws.CommandShape.modmul (rd ra rb rc : Reg) : Laws.CommandShape.Statement (.modmul rd ra rb rc) := by
  refine ⟨fun r hr hm => ?_, by simp [Instr.wf, Instr.dests]⟩
  rw [encode, fieldOpc_assemble]
  fin_cases hr <;> first | rfl | exact absurd hm (by decide : ¬ _ = "MODMUL")

theorem Laws.CommandShape.egcd (rd ra rb rc ry : Reg) : Laws.CommandShape.Statement (.egcd rd ra rb rc ry) := by
  refine ⟨fun r hr hm => ?_, by simp [Instr.wf, Instr.dests, distinctDests]⟩
  rw [encode, fieldOpc_assemble]
  fin_cases hr <;> first | rfl | exact absurd hm (by decide : ¬ _ = "EGCD")

theorem Laws.CommandShape.modinv (rd ra rc : Reg) : Laws.CommandShape.Statement (.modinv rd ra rc) := by
  refine ⟨fun r hr hm => ?_, by simp [Instr.wf, Instr.dests]⟩
  rw [encode, fieldOpc_assemble]
  fin_cases hr <;> first | rfl | exact absurd hm (by decide : ¬ _ = "MODINV")

end Sys2Proof
end

