-- ==== Sys2Proof/Laws/Step.lean ====
section
/-! SUPPORT. Everything the Engine step of a command can do, and everything a step of the machine can do: the two
inversions that the claims about all instructions and all steps go through. -/

namespace Sys2Proof.Machine

open Sys2Proof

/-! The steps of each agent. -/

theorem step_nil {s : State} (h : s.inputs = []) : step s = engineStep s := by simp [step, turn, h]

theorem step_cons {s : State} {e : Input} {rest : List Input} (h : s.inputs = e :: rest) :
    step s = perform e { s with inputs := rest } := by simp [step, turn, h]

theorem step_write {s : State} {off : Nat} {w : Word} {rest : List Input}
    (h : s.inputs = .write (s.par.wordAccess off) w :: rest) (ho : off < 0x5000) (ha : off % 4 = 0) :
    step s = .next (busWriteWord off w { s with inputs := rest }) := by
  rw [step_cons h]; exact perform_write_word { s with inputs := rest } w ho ha

theorem step_read {s : State} {off : Nat} {rest : List Input}
    (h : s.inputs = .read (s.par.wordAccess off) :: rest) (ho : off < 0x5000) (ha : off % 4 = 0) :
    step s = .next (busReadWord off { s with inputs := rest }) := by
  rw [step_cons h]; exact perform_read_word { s with inputs := rest } ho ha

theorem engineStep_run {s : State} {i : Instr} (hb : s.busy = true) (hc : s.job.command? = some i) :
    engineStep s = exec i s := by
  unfold engineStep; rw [if_pos hb, hc]

theorem step_answer {s : State} {w : Nat} {i : Instr} {rest : List Input} (hb : s.busy = true)
    (hr : s.job.wreq = true) (hc : s.job.command? = some i) (h2 : 2 ≤ w) (h3 : w ≤ s.job.a - 2)
    (hin : s.inputs = .answer w :: rest) : step s = exec i { s with inputs := rest, witness := some w } := by
  rw [step_cons hin]
  simp only [perform, answerStep, State.witnessRequest, hr, if_true]
  rw [if_pos ⟨h2, h3⟩]
  exact engineStep_run (s := { s with inputs := rest, witness := some w }) hb hc

theorem runSteps_zero (s : State) : runSteps 0 s = .next s := rfl

theorem run_succ (M : Host.Core) (k : Nat) (s t : M.State) (h : M.step s = .next t) :
    M.run (k + 1) s = M.run k t := by
  conv_lhs => unfold Host.Core.run
  simp only [h]

theorem runSteps_succ {s t : State} (k : Nat) (h : step s = .next t) : runSteps (k + 1) s = runSteps k t :=
  run_succ Sys2Proof.core k s t h

/-! The Engine step of a command. -/

theorem exec_next (i : Instr) (s : State) : ∃ t, exec i s = .next t := by
  cases i <;> exact ⟨_, rfl⟩

/-- What the Engine step of `i` can make of `s`. -/
inductive ExecCase (i : Instr) (s : State) : State → Prop
  /-- A primality command completes with a verdict. -/
  | verdict (v : Bool) (rd : Reg) (d : BitVec 8)
      (hi : (∃ ra rb, i = .mrround rd ra rb) ∨ ∃ ra k, i = .primetest rd ra k) :
      ExecCase i s (completeOk [(rd, v.toNat)] v false false { s with job.doneRounds := d })
  /-- A modular command completes with a residue. -/
  | residue (rd : Reg) (q : Nat) (hi : i.dests = [rd]) (hc : s.job.c ≠ 0) (hq : q < s.job.c) :
      ExecCase i s (completeOk [(rd, q)] false false false s)
  /-- EGCD completes with its triple. -/
  | bezout (rd ra rb rc ry : Reg) (hi : i = .egcd rd ra rb rc ry) :
      ExecCase i s (completeOk
        [(rd, (egcd s.job.a s.job.b).g), (rc, (egcd s.job.a s.job.b).x.natAbs), (ry, (egcd s.job.a s.job.b).y.natAbs)]
        false (decide ((egcd s.job.a s.job.b).x < 0)) (decide ((egcd s.job.a s.job.b).y < 0)) s)
  /-- The command completes in error. -/
  | error (code : ErrCode) (hc : code ≠ .none) : ExecCase i s (completeError code s)
  /-- PRIMETEST waits for a witness. -/
  | waits (rd ra : Reg) (k : BitVec 8) (hi : i = .primetest rd ra k) (ht : primeTrivial s.job.a = none) (hk : k ≠ 0)
      (ha : s.answered = none) : ExecCase i s s
  /-- A round of PRIMETEST that is not the last passes. -/
  | nextRound (rd ra : Reg) (k : BitVec 8) (w : Nat) (hi : i = .primetest rd ra k) (ha : s.answered = some w)
      (hm : mrRound s.job.a w = true) (hd : s.job.doneRounds + 1 ≠ k) :
      ExecCase i s { s with job.doneRounds := s.job.doneRounds + 1, job.wreq := true, witness := none }

theorem exec_cases {i : Instr} {s t : State} (h : exec i s = .next t) : ExecCase i s t := by
  cases i with
  | mrround rd ra rb =>
    simp only [exec, execMrround, Host.Outcome.next.injEq] at h
    subst h
    split
    · exact .verdict _ rd s.job.doneRounds (.inl ⟨ra, rb, rfl⟩)
    · exact .error _ (by decide)
  | modpow rd ra rb rc =>
    simp only [exec, execModpow, Host.Outcome.next.injEq] at h
    subst h
    split
    · exact .error _ (by decide)
    · exact .residue rd _ rfl ‹_› (modpow_lt (by omega))
  | modmul rd ra rb rc =>
    simp only [exec, execModmul, Host.Outcome.next.injEq] at h
    subst h
    split
    · exact .error _ (by decide)
    · exact .residue rd _ rfl ‹_› (Nat.mod_lt _ (by omega))
  | modinv rd ra rc =>
    simp only [exec, execModinv, Host.Outcome.next.injEq] at h
    subst h
    split
    · exact .error _ (by decide)
    · split
      · exact .error _ (by decide)
      · exact .residue rd _ rfl ‹_› (modinv_lt (by omega) ‹_›)
  | egcd rd ra rb rc ry =>
    simp only [exec, execEgcd, Host.Outcome.next.injEq] at h
    subst h
    exact .bezout rd ra rb rc ry rfl
  | primetest rd ra k =>
    simp only [exec, execPrimetest, Host.Outcome.next.injEq] at h
    subst h
    split
    · exact .verdict _ rd s.job.doneRounds (.inr ⟨ra, k, rfl⟩)
    · rename_i ht
      split
      · exact .verdict _ rd s.job.doneRounds (.inr ⟨ra, k, rfl⟩)
      · rename_i hk
        split
        · rename_i w hw
          unfold roundStep
          split
          · rename_i hm
            split
            · exact .verdict _ rd (s.job.doneRounds + 1) (.inr ⟨ra, k, rfl⟩)
            · exact .nextRound rd ra k w rfl hw hm ‹_›
          · exact .verdict _ rd s.job.doneRounds (.inr ⟨ra, k, rfl⟩)
        · exact .waits rd ra k rfl ht hk ‹_›

/-- The Engine step of any command writes only its destinations, and touches neither IRQEN, OVR, LASTOP, the
parameters, the read data nor the queue: either the command stays in flight, or it completes. -/
theorem exec_frame {i : Instr} {s t : State} (h : exec i s = .next t) :
    t.par = s.par ∧ t.irqen = s.irqen ∧ t.events.ovr = s.events.ovr ∧ t.status.lastop = s.status.lastop ∧
    t.rdata = s.rdata ∧ t.draws = s.draws ∧ t.inputs = s.inputs ∧
    ((t.busy = s.busy ∧ t.events = s.events ∧ t.v = s.v ∧ t.status = s.status) ∨
      (t.busy = false ∧ t.events.done = true ∧ ∀ k, k ∉ i.dests → t.vreg k = s.vreg k)) := by
  cases exec_cases h with
  | verdict v rd d hi =>
    refine ⟨rfl, rfl, rfl, rfl, rfl, rfl, rfl, .inr ⟨rfl, rfl, fun k hk => ?_⟩⟩
    rcases hi with ⟨ra, rb, rfl⟩ | ⟨ra, k, rfl⟩ <;> exact getElem_writeAll_of_not_mem _ s.v _ hk
  | residue rd q hi hc hq =>
    refine ⟨rfl, rfl, rfl, rfl, rfl, rfl, rfl, .inr ⟨rfl, rfl, fun k hk => ?_⟩⟩
    rw [hi] at hk; exact getElem_writeAll_of_not_mem _ s.v _ hk
  | bezout rd ra rb rc ry hi =>
    refine ⟨rfl, rfl, rfl, rfl, rfl, rfl, rfl, .inr ⟨rfl, rfl, fun k hk => ?_⟩⟩
    subst hi; exact getElem_writeAll_of_not_mem _ s.v _ hk
  | error code hc => exact ⟨rfl, rfl, rfl, rfl, rfl, rfl, rfl, .inr ⟨rfl, rfl, fun _ _ => rfl⟩⟩
  | waits rd ra k hi ht hk ha => exact ⟨rfl, rfl, rfl, rfl, rfl, rfl, rfl, .inl ⟨rfl, rfl, rfl, rfl⟩⟩
  | nextRound rd ra k w hi ha hm hd => exact ⟨rfl, rfl, rfl, rfl, rfl, rfl, rfl, .inl ⟨rfl, rfl, rfl, rfl⟩⟩

/-! A step of the machine. -/

/-- What a step can make of `s`. -/
inductive StepCase (s t : State) : Prop
  /-- Nothing is in flight for the Engine, or an answer is discarded. -/
  | idle (q : List Input) (w : Option Nat) (h : t = { s with inputs := q, witness := w })
      (hb : s.busy = false ∨ w = s.witness)
  /-- The Engine runs the command in flight. -/
  | run (q : List Input) (w : Option Nat) (i : Instr) (hb : s.busy = true) (hc : s.job.command? = some i)
      (h : exec i { s with inputs := q, witness := w } = .next t)
  | read (q : List Input) (x : Word) (d : Nat) (h : t = { s with inputs := q, rdata := x, draws := d })
  | write (acc : Access) (w : Word) (q : List Input) (off : Nat) (hi : s.inputs = .write acc w :: q)
      (ha : acc.addr = s.par.base + off) (ho : off < 0x5000) (h : t = busWrite off acc.lanes w { s with inputs := q })
  | reset (q : List Input) (hi : s.inputs = .reset :: q) (h : t = resetInput { s with inputs := q })

theorem engineStep_cases {s t : State} (q : List Input) (w : Option Nat)
    (h : engineStep { s with inputs := q, witness := w } = .next t) : StepCase s t := by
  unfold engineStep at h
  split at h
  · rename_i hb
    split at h
    · exact .run q w _ hb ‹_› h
    · cases h
  · rename_i hb
    cases h
    exact .idle q w rfl (.inl (by have : s.busy ≠ true := hb; simpa using this))

theorem step_cases {s t : State} (h : step s = .next t) : StepCase s t := by
  cases hin : s.inputs with
  | nil => rw [step_nil hin] at h; exact engineStep_cases s.inputs s.witness h
  | cons e rest =>
    rw [step_cons hin] at h
    cases e with
    | read acc =>
      simp only [perform] at h
      split at h
      · cases h
        rename_i off _
        rcases busRead_cases off acc.lanes { s with inputs := rest } with ⟨x, e⟩ | ⟨k, i, _, _, _, e⟩
        · exact .read rest x s.draws e
        · exact .read rest _ (s.draws + 1) e
      · cases h
    | write acc w =>
      simp only [perform] at h
      split at h
      · cases h
        rename_i off hoff
        have := offset?_eq_some hoff
        exact .write acc w rest off hin this.2 this.1 rfl
      · cases h
    | engine => exact engineStep_cases rest s.witness h
    | answer w =>
      simp only [perform, answerStep] at h
      split at h
      · cases h; exact .idle rest s.witness rfl (.inr rfl)
      · split at h
        · exact engineStep_cases rest (some w) h
        · cases h
    | staleAnswer w => cases h; exact .idle rest s.witness rfl (.inr rfl)
    | reset => cases h; exact .reset rest hin rfl

/-- The queue is no part of the invariant. -/
theorem State.Inv.inputs {s : State} (h : s.Inv) (q : List Input) : ({ s with inputs := q } : State).Inv :=
  ⟨h.params, h.registers, h.operands, h.record, h.request, h.status, h.port⟩

/-- The parameters that State.reset takes are in range. -/
theorem config_ok : 2 ≤ Config.opwWords ∧ Config.opwWords ≤ 256 ∧ Config.base % 4096 = 0 := by
  have range : ∀ n : Nat, 2 ≤ n % 255 + 2 ∧ n % 255 + 2 ≤ 256 := fun n => by omega
  refine ⟨(range _).1, (range _).2, ?_⟩
  unfold Config.base
  exact Nat.mul_mod_left _ _

end Sys2Proof.Machine
end

