-- ==== Sys2Proof/Tests/Slice0.lean ====
section
/-! SUPPORT. Tests of one step each, their expected results taken from the spec's own vectors
(95_test_vectors.md, named in each docstring), and a witness for every statement that has hypotheses. -/

namespace Sys2Proof.Tests

open Sys2Proof Sys2Proof.Machine

/-! ## Small states -/

/-- The block after reset with OPW = 64 and BASE = 0x10000. -/
def blank : State := State.resetWith { opwWords := 2, base := 0x10000 }

/-- The block with registers loaded. -/
def loaded (vs : List (Reg × Nat)) : State :=
  { blank with v := writeAll blank.v vs, written := markAll blank.written vs }

/-- The block with every register loaded with 0 and some with other values. -/
def allLoaded (vs : List (Reg × Nat)) : State :=
  { loaded vs with written := Vector.replicate 16 (BitVec.allOnes 256) }

/-- What the agents do next. -/
def queue (q : List Input) (s : State) : State := { s with inputs := q }

/-- The block with a command accepted from loaded registers. -/
def inFlight (i : Instr) (vs : List (Reg × Nat)) : State := acceptLegal (encode i) (loaded vs)

/-- A write of an aligned word at an offset of the tests' block. -/
def wr (off : Nat) (w : Word) : Input := .write (blank.par.wordAccess off) w

/-- A read of an aligned word at an offset of the tests' block. -/
def rd (off : Nat) : Input := .read (blank.par.wordAccess off)

/-- The outcome is a next state with a property. -/
def nextIs (o : Host.Outcome State Fault Refusal) (p : State → Bool) : Bool :=
  match o with
  | .next t => p t
  | .fault _ => false
  | .refused _ => false

theorem nextIs_iff (o : Host.Outcome State Fault Refusal) (p : State → Bool) :
    nextIs o p = true ↔ ∃ t, o = .next t ∧ p t = true := by
  cases o <;> simp [nextIs]

/-- The step that runs a command word placed by withFetchWord over loaded registers ends with a property. -/
def runs (w : Nat) (vs : List (Reg × Nat)) (p : State → Bool) : Bool :=
  nextIs (step ((loaded vs).withFetchWord 32 w)) p

/-! ## WellFormed: one ill-formed command for each check -/

/-- 30_encoding.md R98: RD ≠ RC. -/
theorem test_wf_refuses_rd_rc : (Instr.egcd 2 0 1 2 4).wf = false := by decide
/-- 30_encoding.md R98: RD ≠ RY. -/
theorem test_wf_refuses_rd_ry : (Instr.egcd 2 0 1 3 2).wf = false := by decide
/-- 30_encoding.md R98: RC ≠ RY. -/
theorem test_wf_refuses_rc_ry : (Instr.egcd 2 0 1 3 3).wf = false := by decide
/-- 30_encoding.md R95: sources may equal each other and any destination. -/
theorem test_wf_accepts_shared_sources : (Instr.egcd 13 13 13 14 15).wf = true := by decide

/-! ## Decode: words written out bit by bit, fields from bit 31 down: IMM8, RC, RB, RA, RD, OPC -/

/-- Format MR (R92), vector D4. -/
theorem test_decode_mrround :
    decode (0b00000000#8 ++ 0b0000#4 ++ 0b0001#4 ++ 0b0000#4 ++ 0b0010#4 ++ 0b00000001#8) = .legal (.mrround 2 0 1) := by
  decide
/-- Format P (R93), vector D7. -/
theorem test_decode_primetest :
    decode (0b00000101#8 ++ 0b0000#4 ++ 0b0000#4 ++ 0b0000#4 ++ 0b0011#4 ++ 0b00000010#8) =
      .legal (.primetest 3 0 5) := by decide
/-- Format P (R93), vector D10: the largest count. -/
theorem test_decode_primetest_largest_count :
    decode (0b11111111#8 ++ 0b0000#4 ++ 0b0000#4 ++ 0b1111#4 ++ 0b0000#4 ++ 0b00000010#8) =
      .legal (.primetest 0 15 255) := by decide
/-- Format R3 (R94), vector D11. -/
theorem test_decode_modpow :
    decode (0b00000000#8 ++ 0b0011#4 ++ 0b0001#4 ++ 0b0000#4 ++ 0b0010#4 ++ 0b00000011#8) =
      .legal (.modpow 2 0 1 3) := by decide
/-- Format R3 (R94), vector D14. -/
theorem test_decode_modmul :
    decode (0b00000000#8 ++ 0b0011#4 ++ 0b0001#4 ++ 0b0000#4 ++ 0b0010#4 ++ 0b00000100#8) =
      .legal (.modmul 2 0 1 3) := by decide
/-- Format E (R95), vector D16. -/
theorem test_decode_egcd :
    decode (0b00000100#8 ++ 0b0011#4 ++ 0b0001#4 ++ 0b0000#4 ++ 0b0010#4 ++ 0b00000101#8) =
      .legal (.egcd 2 0 1 3 4) := by decide
/-- Format E (R95), vector D22: RA = RB = RC are told apart by place, not by value. -/
theorem test_decode_egcd_highest :
    decode 0x0F0E0D05 = .legal (.egcd 13 0 14 0 15) := by decide
/-- Format R2 (R96), vector D23. -/
theorem test_decode_modinv :
    decode (0b00000000#8 ++ 0b0011#4 ++ 0b0000#4 ++ 0b0000#4 ++ 0b0010#4 ++ 0b00000110#8) =
      .legal (.modinv 2 0 3) := by decide
/-- Vectors D1, D2, D3: reserved opcodes. -/
theorem test_decode_reserved :
    decode 0x00000000 = .illegal .reservedOpcode ∧ decode 0x00000007 = .illegal .reservedOpcode ∧
      decode 0x000000FF = .illegal .reservedOpcode := by decide
/-- Vectors D5, D6, D9, D12, D15, D20, D24, D25: a field that must be zero is not. -/
theorem test_decode_nonzero_fields :
    decode 0x00310201 = .illegal .nonzeroField ∧ decode 0x01010201 = .illegal .nonzeroField ∧
      decode 0x05010302 = .illegal .nonzeroField ∧ decode 0x80310203 = .illegal .nonzeroField ∧
      decode 0x01310204 = .illegal .nonzeroField ∧ decode 0x14310205 = .illegal .nonzeroField ∧
      decode 0x00310206 = .illegal .nonzeroField ∧ decode 0x01300206 = .illegal .nonzeroField := by decide
/-- Vectors D17, D18, D19, D21: EGCD destinations that coincide. -/
theorem test_decode_same_destinations :
    decode 0x04210205 = .illegal .sameDestinations ∧ decode 0x02310205 = .illegal .sameDestinations ∧
      decode 0x03310205 = .illegal .sameDestinations ∧ decode 0x00000005 = .illegal .sameDestinations := by decide
/-- Vectors D8, D13: every field may be 0. -/
theorem test_decode_all_zero_fields :
    decode 0x00000002 = .legal (.primetest 0 0 0) ∧ decode 0x00000003 = .legal (.modpow 0 0 0 0) := by decide
/-- Programs P1 and P4: words of the pseudo-instructions and of high register numbers. -/
theorem test_encode_programs :
    encode (.egcd 6 5 3 7 8) = 0x08735605 ∧ encode (.modinv 9 5 3) = 0x00305906 ∧
      encode (.modpow 12 11 9 2) = 0x0029BC03 ∧ encode (modsqr 1 1 2) = 0x00211104 ∧
      encode (primetestDefault 4 0) = 0x05000402 := by decide

/-! ## The commands, one Engine step each -/

/-- Vector M13: a strong liar. -/
theorem test_mrround_liar :
    runs 0x00010201 [(0, 221), (1, 174), (2, 99)] (fun t => t.vreg 2 == 1 && t.statusWord == 0x00010004) = true := by
  decide
/-- Vector M24: a > n - 2, and V2 keeps its value. -/
theorem test_mrround_range :
    runs 0x00010201 [(0, 9), (1, 8), (2, 99)] (fun t => t.vreg 2 == 99 && t.statusWord == 0x00010402) = true := by
  decide
/-- Vector T6: even and large. -/
theorem test_primetest_even :
    runs 0x05000302 [(0, 18446744073709551614), (3, 99)]
      (fun t => t.vreg 3 == 0 && t.statusWord == 0x00020000) = true := by decide
/-- Vector T18: one round, its draw 2 a strong liar of 2047. -/
theorem test_primetest_one_round :
    nextIs (step (queue [.answer 2] (inFlight (.primetest 3 0 1) [(0, 2047), (3, 99)])))
      (fun t => t.vreg 3 == 1 && t.statusWord == 0x00020004 && t.inputs == []) = true := by decide
/-- Vector X17: 2^64 mod (2^64 - 59). -/
theorem test_modpow_wide :
    runs 0x00310203 [(0, 2), (1, 64), (3, 18446744073709551557), (2, 99)]
      (fun t => t.vreg 2 == 59 && t.statusWord == 0x00030000) = true := by decide
/-- Vector X27: modulus 0. -/
theorem test_modpow_zero_modulus :
    runs 0x00310203 [(0, 5), (1, 3), (3, 0), (2, 99)]
      (fun t => t.vreg 2 == 99 && t.statusWord == 0x00030202) = true := by decide
/-- Vector X25: the largest inputs. -/
theorem test_modmul_largest :
    runs 0x00310204 [(0, 18446744073709551615), (1, 18446744073709551615), (3, 18446744073709551557), (2, 99)]
      (fun t => t.vreg 2 == 3364 && t.statusWord == 0x00040000) = true := by decide
/-- Program P4, last trace row: a source that is also the destination. -/
theorem test_modmul_in_place :
    runs 0x00211104 [(1, 429), (2, 497)] (fun t => t.vreg 1 == 151 && t.statusWord == 0x00040000) = true := by decide
/-- Vector G6: x negative. -/
theorem test_egcd_x_negative :
    runs 0x04310205 [(0, 240), (1, 46)]
      (fun t => t.vreg 2 == 2 && t.vreg 3 == 9 && t.vreg 4 == 47 && t.statusWord == 0x00050008) = true := by decide
/-- Vector G9: y negative. -/
theorem test_egcd_y_negative :
    runs 0x04310205 [(0, 3120), (1, 17)]
      (fun t => t.vreg 2 == 1 && t.vreg 3 == 2 && t.vreg 4 == 367 && t.statusWord == 0x00050010) = true := by decide
/-- Vector I5: a > n. -/
theorem test_modinv_reduces :
    runs 0x00300206 [(0, 65537), (3, 3120), (2, 99)]
      (fun t => t.vreg 2 == 2753 && t.statusWord == 0x00060000) = true := by decide
/-- Vector I13: gcd 3. -/
theorem test_modinv_undefined :
    runs 0x00300206 [(0, 6), (3, 9), (2, 99)]
      (fun t => t.vreg 2 == 99 && t.statusWord == 0x00060302) = true := by decide
/-- Vector D17 at CMD: ILLEGAL is recorded by the write itself. -/
theorem test_illegal_word :
    runs 0x04210205 [(2, 99)]
      (fun t => t.vreg 2 == 99 && t.statusWord == 0x00050102 && t.eventsWord == 1 && !t.busy) = true := by decide

/-! ## The bus -/

/-- Vector B1. -/
theorem test_read_id : nextIs (step (queue [rd 0x000] blank)) (fun t => t.rdata == 0x4D455850) = true := by decide
/-- Vector B2: OPW = 2048. -/
theorem test_read_param :
    (State.resetWith { opwWords := 64, base := 0 }).paramWord = 0x01100040 := by decide
/-- Vector B6: word 2 of a 64-bit register does not exist. -/
theorem test_write_past_width :
    nextIs (step (queue [wr 0x1008 0x12345678] (loaded [(0, 5)]))) (fun t => t.vreg 0 == 5 && t.rdata == 0) = true := by
  decide
/-- Vector B19: a write of word 0 keeps the upper word. -/
theorem test_write_low_word :
    nextIs (step (queue [wr 0x1000 7] (loaded [(0, 4294967296)]))) (fun t => t.vreg 0 == 4294967303) = true := by decide
/-- Vector B7, its second write: word 1 lies above word 0. -/
theorem test_write_high_word :
    nextIs (step (queue [wr 0x1004 0x01234567] (loaded [(0, 0x89ABCDEF)])))
      (fun t => t.vreg 0 == 0x0123456789ABCDEF) = true := by decide
/-- R251: one written word of two leaves the register unknown (the read takes a free word), and the second makes it
known (B7). -/
theorem test_partly_written_register :
    nextIs (step (queue [rd 0x1000] (blank.setVWord 0 0 0x89ABCDEF))) (fun t => t.draws == 1) = true ∧
    nextIs (step (queue [rd 0x1000] ((blank.setVWord 0 0 0x89ABCDEF).setVWord 0 1 0x01234567)))
      (fun t => t.draws == 0 && t.rdata == 0x89ABCDEF) = true := by decide
/-- Vector B8: misaligned. -/
theorem test_misaligned_write :
    nextIs (step (queue [wr 0x1001 0xFFFFFFFF] (loaded [(0, 5)]))) (fun t => t.vreg 0 == 5 && t.eventsWord == 0) =
      true := by decide
/-- Vector B9: a V word reads as 0 while BUSY. -/
theorem test_busy_read :
    nextIs (step (queue [rd 0x1000] (inFlight (.modpow 2 0 1 3) [(0, 4), (1, 13), (3, 497)])))
      (fun t => t.rdata == 0) = true := by decide
/-- Vector B11: a CMD write while BUSY is dropped. -/
theorem test_busy_cmd_write :
    nextIs (step (queue [wr 0x008 0x00310204] (inFlight (.modpow 2 0 1 3) [(0, 4), (1, 13), (3, 497)])))
      (fun t => t.eventsWord == 2 && t.status.lastop == 0x03) = true := by decide
/-- Vectors B12 and B14: W1C, and irq at once for a pending event. -/
theorem test_events_and_irq :
    nextIs (step (queue [wr 0x010 1] { blank with events := { done := true, ovr := true } }))
      (fun t => t.eventsWord == 2) = true ∧
    nextIs (step (queue [wr 0x014 1] { blank with events := { done := true, ovr := false } }))
      (fun t => t.irq) = true := by decide

/-! ## Witnesses: for every statement with hypotheses, states and operands that meet them all, one for each clause,
at the ends of its range -/

/-- MODPOW in flight, its result 4^13 mod 497 still to come. -/
def running : State := inFlight (.modpow 2 0 1 3) [(0, 4), (1, 13), (3, 497)]

/-- PRIMETEST of 25 in flight with three rounds asked for: it waits for a witness. -/
def waiting : State := inFlight (.primetest 3 0 3) [(0, 25)]

/-- The block with a record whose operands are `a`, `b`, `c`. -/
def withOperands (a b c : Nat) : State :=
  { blank with job := { Job.idle with valid := true, a := a, b := b, c := c } }

theorem running_inv : running.Inv := ⟨by decide, by decide, by decide, by decide, by decide, by decide, rfl⟩
theorem waiting_inv : waiting.Inv := ⟨by decide, by decide, by decide, by decide, by decide, by decide, rfl⟩
theorem blank_inv : blank.Inv := ⟨by decide, by decide, by decide, by decide, by decide, by decide, rfl⟩

/-- Lowest and highest register numbers and counts. -/
theorem witness_EncodeThenDecode :
    (Instr.egcd 0 15 15 1 15).wf = true ∧ (Instr.primetest 15 15 255).wf = true ∧
      (Instr.modpow 15 15 15 15).wf = true := by decide

theorem witness_DecodedWordsAreEncodings :
    decode 0x0F0E0D05 = .legal (.egcd 13 0 14 0 15) ∧ decode 0xFF00F002 = .legal (.primetest 0 15 255) := by decide

/-- A row that selects a word, one that does not, and EGCD's row with destinations that coincide (D16, D5, D17). -/
theorem witness_DecoderFollowsOpcodeMap :
    (∃ r ∈ opcodeMap, r.mnemonic = "EGCD" ∧ r.selects 0x04310205 = true ∧ r.selects 0x04210205 = true) ∧
      (∃ r ∈ opcodeMap, r.mnemonic = "MRROUND" ∧ r.selects 0x00010201 = true ∧ r.selects 0x00310201 = false) := by
  decide

theorem witness_ReservedOpcodesAreIllegal :
    ((0x00000000 : Word).toNat % 256 = 0 ∨ 7 ≤ (0x00000000 : Word).toNat % 256) ∧
      ((0x00000007 : Word).toNat % 256 = 0 ∨ 7 ≤ (0x00000007 : Word).toNat % 256) ∧
      ((0x000000FF : Word).toNat % 256 = 0 ∨ 7 ≤ (0x000000FF : Word).toNat % 256) := by decide

/-- Reset as the last input, and before another; a command in flight, and none; parameters in range. -/
theorem witness_ResetInputDiscardsCommand :
    (queue [.reset] waiting).inputs = .reset :: [] ∧ waiting.busy = true ∧ waiting.par.Ok ∧
      (queue [.reset, .engine] blank).inputs = .reset :: [.engine] ∧ blank.busy = false := by decide

/-- A withdrawn request's witness while idle and while another PRIMETEST waits; an answer that nothing asked for. -/
theorem witness_LateWitnessIsDiscarded :
    (queue [.staleAnswer 7] blank).inputs = .staleAnswer 7 :: [] ∧
      (queue [.staleAnswer 7] waiting).inputs = .staleAnswer 7 :: [] ∧ waiting.witnessRequest = some 25 ∧
      (queue [.answer 7] running).inputs = .answer 7 :: [] ∧ running.witnessRequest = none := by decide

theorem witness_StepKeepsInvariant :
    (queue [.answer 7] waiting).Inv ∧ ∃ t, step (queue [.answer 7] waiting) = .next t :=
  ⟨waiting_inv.inputs _, ((nextIs_iff _ (fun _ => true)).1 (by decide)).imp fun _ h => h.1⟩

/-- A next state; accesses one below and one above the region; draws one below and one above their range. -/
theorem witness_OnlyOutsideInputsAreRefused :
    running.Inv ∧ nextIs (step running) (fun _ => true) = true ∧
      ¬(running.par.base ≤ 0xFFFF ∧ 0xFFFF < running.par.base + 0x5000) ∧
      ¬(running.par.base ≤ 0x15000 ∧ 0x15000 < running.par.base + 0x5000) ∧
      waiting.Inv ∧ ¬(2 ≤ 1 ∧ 1 ≤ waiting.job.a - 2) ∧ ¬(2 ≤ 24 ∧ 24 ≤ waiting.job.a - 2) :=
  ⟨running_inv, by decide, by decide, by decide, waiting_inv, by decide, by decide⟩

theorem witness_ParametersNeverChange : ∃ t, step running = .next t :=
  ((nextIs_iff _ (fun _ => true)).1 (by decide)).imp fun _ h => h.1

/-- An empty queue, an engine input, and answers at both ends of the range. -/
theorem witness_EngineTurnRunsCommandInFlight :
    running.RecordLegal ∧ running.busy = true ∧ decode running.job.word = .legal (.modpow 2 0 1 3) ∧
      running.inputs = [] ∧ (queue [.engine] running).inputs = .engine :: [] ∧
      waiting.RecordLegal ∧ waiting.busy = true ∧ decode waiting.job.word = .legal (.primetest 3 0 3) ∧
      (queue [.answer 2, .answer 23] waiting).inputs = .answer 2 :: [.answer 23] ∧ waiting.job.wreq = true ∧
      2 ≤ 2 ∧ 2 ≤ waiting.job.a - 2 ∧ 2 ≤ 23 ∧ 23 ≤ waiting.job.a - 2 := by decide

theorem witness_FetchedWordRuns :
    decodeTableWord 32 0x04310205 = some (.egcd 2 0 1 3 4) ∧ decodeTableWord 32 0x04210205 = none := by decide

theorem witness_EngineCompletesWhenNothingIsQueued :
    running.Inv ∧ running.inputs = [] ∧ running.busy = true ∧ running.job.wreq = false :=
  ⟨running_inv, by decide, by decide, by decide⟩

/-- DONE at a completion, raised and kept; at an ILLEGAL word; cleared by the Host, and by reset. -/
theorem witness_DoneRecordsCompletions :
    (running.events.done = false ∧ running.busy = true ∧
      nextIs (step running) (fun t => t.events.done && !t.busy) = true) ∧
    nextIs (step { running with events := { done := true, ovr := false } }) (fun t => t.events.done && !t.busy) = true ∧
    (blank.busy = false ∧ blank.events.done = false ∧
      (queue [wr 0x008 0] blank).inputs = .write (blank.par.wordAccess 0x008) 0 :: [] ∧ (decode 0).instr? = none ∧
      nextIs (step (queue [wr 0x008 0] blank)) (fun t => t.events.done) = true) ∧
    nextIs (step (queue [wr 0x010 1] { blank with events := { done := true, ovr := false } }))
      (fun t => !t.events.done) = true ∧
    nextIs (step (queue [.reset] { running with events := { done := true, ovr := false } }))
      (fun t => !t.busy && !t.events.done) = true := by decide

theorem witness_OverrunRisesOnlyAtDroppedWrite :
    running.events.ovr = false ∧ nextIs (step (queue [wr 0x1000 5] running)) (fun t => t.events.ovr) = true := by decide

/-- A register changed by a write to its window, by a completion, and by reset. -/
theorem witness_RegistersChangeOnlyByHostOrCompletion :
    nextIs (step (queue [wr 0x4C04 1] blank)) (fun t => t.vreg 15 != blank.vreg 15) = true ∧
      nextIs (step running) (fun t => t.vreg 2 != running.vreg 2) = true ∧
      nextIs (step (queue [.reset] running)) (fun t => t.vreg 0 != running.vreg 0) = true := by decide

/-- BUSY rises; LASTOP changes at a legal word, at an ILLEGAL word and at reset. -/
theorem witness_BusyAndLastopFollowCmdWrites :
    (blank.busy = false ∧
      nextIs (step (queue [wr 0x008 0x00310203] blank)) (fun t => t.busy && t.status.lastop != blank.status.lastop) =
        true) ∧
      nextIs (step (queue [wr 0x008 0x000000FF] blank)) (fun t => t.status.lastop != blank.status.lastop) = true ∧
      nextIs (step (queue [.reset] running)) (fun t => t.status.lastop != running.status.lastop) = true := by decide

/-- A command whose sources are written, and one whose source is not. -/
theorem witness_CmdWriteAcceptsLegalWord :
    (loaded [(0, 25)]).quiescent = true ∧ decode 0x03000302 = .legal (.primetest 3 0 3) ∧
      (queue [wr 0x008 0x03000302] (loaded [(0, 25)])).inputs =
        .write ((loaded [(0, 25)]).par.wordAccess 0x008) 0x03000302 :: [] ∧
      (loaded [(0, 25)]).fullyWritten 0 = true ∧ (loaded [(0, 25)]).fullyWritten 1 = false := by decide

theorem witness_CmdWriteRecordsIllegalWord :
    blank.quiescent = true ∧ decode 0x04210205 = .illegal .sameDestinations ∧
      (queue [wr 0x008 0x04210205] blank).inputs = .write (blank.par.wordAccess 0x008) 0x04210205 :: [] := by decide

/-- Every clause; the last word that exists, the first that does not, and the last of a window. -/
theorem witness_WritesWhileBusyAreDropped :
    running.par.Ok ∧ running.busy = true ∧
      (queue [wr 0x008 0] running).inputs = .write (running.par.wordAccess 0x008) 0 :: [] ∧
      1 < running.par.opwWords ∧
      (queue [wr 0x4C04 5] running).inputs = .write (running.par.wordAccess (vOffset 15 1)) 5 :: [] ∧
      running.par.opwWords ≤ 2 ∧
      (queue [wr 0x1008 5] running).inputs = .write (running.par.wordAccess (vOffset 0 2)) 5 :: [] ∧
      (queue [wr 0x4FFC 5] running).inputs = .write (running.par.wordAccess (vOffset 15 255)) 5 :: [] ∧
      (queue [wr 0x010 3] running).inputs = .write (running.par.wordAccess 0x010) 3 :: [] ∧
      (queue [wr 0x014 3] running).inputs = .write (running.par.wordAccess 0x014) 3 :: [] := by decide

theorem witness_ReadsWhileBusy :
    running.par.Ok ∧ running.busy = true ∧
      (queue [rd 0x1000] running).inputs = .read (running.par.wordAccess (vOffset 0 0)) :: [] ∧
      (queue [rd 0x4FFC] running).inputs = .read (running.par.wordAccess (vOffset 15 255)) :: [] ∧
      (queue [rd 0x000] running).inputs = .read (running.par.wordAccess 0x000) :: [] ∧
      (queue [rd 0x004] running).inputs = .read (running.par.wordAccess 0x004) :: [] ∧
      (queue [rd 0x00C] running).inputs = .read (running.par.wordAccess 0x00C) :: [] ∧
      (queue [rd 0x010] running).inputs = .read (running.par.wordAccess 0x010) :: [] ∧
      (queue [rd 0x014] running).inputs = .read (running.par.wordAccess 0x014) :: [] := by decide

/-- Each register's offset; the first and the last word of the V windows, idle and while BUSY. -/
theorem witness_ReadsReturnTheMap :
    blank.par.Ok ∧
      (∀ off ∈ [0x000, 0x004, 0x008, 0x00C, 0x010, 0x014],
        (queue [rd off] blank).inputs = .read (blank.par.wordAccess off) :: []) ∧
      (0x1000 = vOffset 0 0 ∧ 0x4C04 = vOffset 15 1 ∧ 1 < blank.par.opwWords) ∧
      ((loaded [(0, 5), (15, 7)]).busy = false ∧ (loaded [(0, 5), (15, 7)]).fullyWritten 0 = true ∧
        (loaded [(0, 5), (15, 7)]).fullyWritten 15 = true) ∧ running.busy = true := by decide

/-- The first and the last byte of the region. -/
theorem witness_ReadsChangeOnlyReadData :
    blank.par.base ≤ 0x10000 ∧ 0x10000 < blank.par.base + 0x5000 ∧
      blank.par.base ≤ 0x14FFF ∧ 0x14FFF < blank.par.base + 0x5000 ∧
      (queue [.read { addr := 0x14FFF, lanes := 1 }] blank).inputs = .read { addr := 0x14FFF, lanes := 1 } :: [] := by
  decide

/-- Every register can be fully written. -/
theorem witness_ReadsChangeOnlyReadData_written : ∀ k, (allLoaded []).fullyWritten k = true := by decide

/-- The narrowest and the widest registers. -/
theorem witness_RegisterWordsHaveTheirFields :
    (State.resetWith { opwWords := 2, base := 0 }).par.Ok ∧ (State.resetWith { opwWords := 256, base := 4096 }).par.Ok := by
  decide

/-- A misaligned access with every lane, and an aligned one with one lane missing, at both ends of the region. -/
theorem witness_NarrowAccessesAreInert :
    blank.par.Ok ∧ blank.par.base ≤ 0x10001 ∧ 0x10001 < blank.par.base + 0x5000 ∧ 0x10001 % 4 ≠ 0 ∧
      blank.par.base ≤ 0x14FFC ∧ 0x14FFC < blank.par.base + 0x5000 ∧ (0x7 : BitVec 4) ≠ 0xF := by decide

/-- The ends of each reserved range. -/
theorem witness_ReservedOffsetsAreInert :
    blank.par.Ok ∧ (0x018 % 4 = 0 ∧ 0x018 ≤ 0x018 ∧ 0x018 < 0x1000) ∧
      (0xFFC % 4 = 0 ∧ 0x018 ≤ 0xFFC ∧ 0xFFC < 0x1000) ∧
      (vOffset 0 2 % 4 = 0 ∧ blank.par.opwWords ≤ 2 ∧ 0x1008 = vOffset 0 2) ∧
      (vOffset 15 255 % 4 = 0 ∧ blank.par.opwWords ≤ 255 ∧ 0x4FFC = vOffset 15 255) ∧
      (queue [wr 0x018 5] blank).inputs = .write (blank.par.wordAccess 0x018) 5 :: [] ∧
      (queue [rd 0x018] blank).inputs = .read (blank.par.wordAccess 0x018) :: [] := by decide

theorem witness_ReadOnlyRegistersIgnoreWrites :
    (queue [wr 0x000 5] blank).inputs = .write (blank.par.wordAccess 0x000) 5 :: [] ∧
      (queue [wr 0x004 5] blank).inputs = .write (blank.par.wordAccess 0x004) 5 :: [] ∧
      (queue [wr 0x00C 5] blank).inputs = .write (blank.par.wordAccess 0x00C) 5 :: [] := by decide

theorem witness_EventsAreClearedByWritingOne :
    (queue [wr 0x010 1] blank).inputs = .write (blank.par.wordAccess 0x010) 1 :: [] := by decide

theorem witness_IrqenWriteSetsEnables :
    (queue [wr 0x014 3] blank).inputs = .write (blank.par.wordAccess 0x014) 3 :: [] := by decide

/-- The first word of V0 with nothing after it, and the last word of V15 with its read after it, the write being the
one that makes V15 fully written. -/
theorem witness_VWordWriteChangesThirtyTwoBits :
    blank.par.Ok ∧ blank.quiescent = true ∧ 0 < blank.par.opwWords ∧ 1 < blank.par.opwWords ∧
      (queue [wr 0x1000 7] blank).inputs = .write (blank.par.wordAccess (vOffset 0 0)) 7 :: [] ∧
      (blank.setVWord 15 0 5).quiescent = true ∧ (blank.setVWord 15 0 5).fullyWritten 15 = false ∧
      (queue [wr 0x4C04 7, rd 0x4C04] (blank.setVWord 15 0 5)).inputs =
        .write (blank.par.wordAccess (vOffset 15 1)) 7 :: .read (blank.par.wordAccess (vOffset 15 1)) :: [] ∧
      nextIs (step (queue [wr 0x4C04 7, rd 0x4C04] (blank.setVWord 15 0 5))) (fun t => t.fullyWritten 15) = true := by
  decide

/-- The largest number, over the largest number. -/
theorem witness_LoadingEveryWordLoadsRegister :
    blank.par.Ok ∧ (loaded [(15, 2 ^ 64 - 1)]).quiescent = true ∧
      (loaded [(15, 2 ^ 64 - 1)]).vreg 15 < 2 ^ blank.par.opw ∧ 2 ^ 64 - 1 < 2 ^ blank.par.opw ∧
      (queue (loadWrites blank.par 15 (2 ^ 64 - 1)) (loaded [(15, 2 ^ 64 - 1)])).inputs =
        loadWrites blank.par 15 (2 ^ 64 - 1) ++ [] := by decide

/-- A register with no word written, and the written word of a register with one. -/
theorem witness_UnwrittenWordReadsFree :
    blank.par.Ok ∧ blank.quiescent = true ∧ 1 < blank.par.opwWords ∧ blank.fullyWritten 15 = false ∧
      (queue [rd 0x4C04] blank).inputs = .read (blank.par.wordAccess (vOffset 15 1)) :: [] ∧
      (blank.setVWord 0 0 5).wordWritten 0 0 = true ∧ (blank.setVWord 0 0 5).fullyWritten 0 = false := by decide

/-- Three sources of which one has one word written and the others none. -/
theorem witness_UnwrittenSourceIsCapturedFree :
    (blank.setVWord 0 0 5).quiescent = true ∧ decode 0x00310203 = .legal (.modpow 2 0 1 3) ∧
      (queue [wr 0x008 0x00310203] (blank.setVWord 0 0 5)).inputs = .write (blank.par.wordAccess 0x008) 0x00310203 :: [] ∧
      (blank.setVWord 0 0 5).fullyWritten 0 = false ∧ blank.fullyWritten 1 = false ∧ blank.fullyWritten 3 = false ∧
      1 < blank.par.opwWords ∧ (blank.setVWord 0 0 5).RegistersInRange := by decide

/-- Both ends of the witness range at the smallest n (M1, M2). -/
theorem witness_MrroundCompletes :
    let s := withOperands 5 2 0
    let u := withOperands 5 3 0
    (s.job.a % 2 = 1 ∧ 5 ≤ s.job.a ∧ 2 ≤ s.job.b ∧ s.job.b ≤ s.job.a - 2) ∧
      (u.job.a % 2 = 1 ∧ 5 ≤ u.job.a ∧ 2 ≤ u.job.b ∧ u.job.b ≤ u.job.a - 2) := by decide

/-- Each way out of the range (M20, M21, M23, M24). -/
theorem witness_MrroundRangeError :
    (withOperands 4 2 0).job.a % 2 = 0 ∧ (withOperands 3 2 0).job.a < 5 ∧ (withOperands 9 1 0).job.b < 2 ∧
      (withOperands 9 8 0).job.a < (withOperands 9 8 0).job.b + 2 := by decide

/-- Each clause at its ends (T1 to T7). -/
theorem witness_PrimetestWithoutWitness :
    ((withOperands 0 0 0).job.a ≤ 1) ∧ ((withOperands 1 0 0).job.a ≤ 1) ∧
      ((withOperands 2 0 0).job.a = 2 ∨ (withOperands 2 0 0).job.a = 3) ∧
      ((withOperands 3 0 0).job.a = 2 ∨ (withOperands 3 0 0).job.a = 3) ∧
      (4 ≤ (withOperands 4 0 0).job.a ∧ (withOperands 4 0 0).job.a % 2 = 0) ∧
      (5 ≤ (withOperands 5 0 0).job.a ∧ (withOperands 5 0 0).job.a % 2 = 1 ∧ (0 : BitVec 8) = 0) := by decide

/-- A round that fails, the last round that passes, and an earlier one (T16, T15). -/
theorem witness_PrimetestRoundStep :
    let s := { waiting with witness := some 7 }
    let u := { s with job.doneRounds := 2 }
    (s.job.a % 2 = 1 ∧ 5 ≤ s.job.a ∧ s.job.wreq = true ∧ s.job.doneRounds.toNat < (3 : BitVec 8).toNat ∧
        s.witness = some 7 ∧ 2 ≤ 7 ∧ 7 ≤ s.job.a - 2 ∧ mrRound s.job.a 7 = true ∧
        s.job.doneRounds.toNat + 1 < (3 : BitVec 8).toNat) ∧
      (u.job.doneRounds.toNat < (3 : BitVec 8).toNat ∧ u.job.doneRounds.toNat + 1 = (3 : BitVec 8).toNat) ∧
      mrRound waiting.job.a 2 = false ∧ 2 ≤ 2 ∧ 2 ≤ waiting.job.a - 2 := by decide

/-- The wait with nothing queued, and with an access, an Engine turn and a stale answer queued. -/
theorem witness_PrimetestWaitsForAnswer :
    waiting.Inv ∧ waiting.job.wreq = true ∧ waiting.inputs = [] ∧
      (∀ e ∈ [wr 0x008 0, rd 0x1000, .engine, .staleAnswer 7],
        (∀ w, e ≠ .answer w) ∧ e ≠ .reset ∧ nextIs (step (queue [e] waiting)) (fun _ => true) = true) := by
  refine ⟨waiting_inv, by decide, by decide, fun e he => ?_⟩
  fin_cases he <;> refine ⟨fun w h => ?_, by decide, by decide⟩ <;> cases h

/-- Two draws of three taken (T16), and all three (T15). -/
theorem witness_PrimetestRunsItsProgram :
    let s := queue ([wr 0x008 (encode (.primetest 3 0 3))] ++ [7, 2].map Input.answer) (loaded [(0, 25)])
    s.ready (.primetest 3 0 3) = true ∧ needsWitness (s.vreg 0) 3 = true ∧ drawsInRange (s.vreg 0) [7, 2] = true ∧
      primetestProgram (s.vreg 0) (3 : BitVec 8).toNat [7, 2] = some false ∧
      primetestProgram (s.vreg 0) (3 : BitVec 8).toNat ([7, 2].take 1) = none ∧
      drawsInRange (s.vreg 0) [7, 18, 7] = true ∧
      primetestProgram (s.vreg 0) (3 : BitVec 8).toNat [7, 18, 7] = some true ∧
      s.inputs = .write (s.par.wordAccess 0x008) (encode (.primetest 3 0 3)) :: ([7, 2].map Input.answer ++ []) := by
  decide

theorem witness_ModpowCompletes : (withOperands 0 0 1).job.c ≠ 0 := by decide
theorem witness_ModmulCompletes : (withOperands 0 0 1).job.c ≠ 0 := by decide
theorem witness_ZeroModulusIsModzero : (withOperands 5 3 0).job.c = 0 := by decide
theorem witness_EgcdCompletes : (Instr.egcd 0 0 0 1 15).wf = true := by decide

/-- I1, and n = 1 (I10). -/
theorem witness_ModinvCompletes :
    (withOperands 3 0 7).job.c ≠ 0 ∧ Nat.gcd (withOperands 3 0 7).job.a (withOperands 3 0 7).job.c = 1 ∧
      (withOperands 0 0 1).job.c ≠ 0 ∧ Nat.gcd (withOperands 0 0 1).job.a (withOperands 0 0 1).job.c = 1 := by decide

/-- I12 and I15. -/
theorem witness_ModinvNotCoprimeIsInvundef :
    (withOperands 0 0 5).job.c ≠ 0 ∧ Nat.gcd (withOperands 0 0 5).job.a (withOperands 0 0 5).job.c ≠ 1 ∧
      (withOperands 2 0 2).job.c ≠ 0 ∧ Nat.gcd (withOperands 2 0 2).job.a (withOperands 2 0 2).job.c ≠ 1 := by decide

/-- A command that completes in error from a state without one (I13). -/
theorem witness_ErrorsArePrecise :
    (withOperands 6 0 9).status.err = false ∧
      nextIs (exec (.modinv 2 0 3) (withOperands 6 0 9)) (fun t => t.status.err) = true := by decide

/-- Two states that share a record in flight and differ in a source register, and the command completes. -/
theorem witness_CommandsReadOnlyTheRecord :
    let u := { running with v := running.v.set 0 5 }
    (Instr.modpow 2 0 1 3).wf = true ∧ running.job = u.job ∧ running.witness = u.witness ∧
      running.busy = true ∧ running.vreg 0 ≠ u.vreg 0 ∧ (2 : Reg) ∈ (Instr.modpow 2 0 1 3).dests ∧
      nextIs (exec (.modpow 2 0 1 3) running) (fun t => !t.busy && !t.status.err) = true ∧
      nextIs (exec (.modpow 2 0 1 3) u) (fun _ => true) = true := by decide

/-- A state from which each command may be issued. -/
theorem witness_IssuedCommandsComputeOnRegisters :
    let s := allLoaded [(0, 5), (1, 2), (3, 7)]
    (∀ i ∈ [Instr.mrround 2 0 1, .primetest 2 4 1, .modpow 2 0 1 3, .modmul 2 0 1 3, .egcd 2 0 1 3 4, .modinv 2 0 3],
      s.ready i = true) ∧
      (queue [wr 0x008 (encode (.mrround 2 0 1)), .engine] s).inputs =
        .write (s.par.wordAccess 0x008) (encode (.mrround 2 0 1)) :: .engine :: [] := by decide

/-- Its inner clauses: a prime with a witness in range, a composite with verdict 0, a number that needs no draw, and
moduli that are not 0. -/
theorem witness_IssuedCommandsComputeOnRegisters_clauses :
    (Nat.Prime 5 ∧ 5 ≤ 5 ∧ 2 ≤ 2 ∧ 2 ≤ 5 - 2) ∧ mrRound 9 2 = false ∧
      (needsWitness 0 1 = false ∧ (1 : BitVec 8) ≠ 0) ∧ Nat.gcd 5 7 = 1 :=
  ⟨⟨by norm_num, by decide, by decide, by decide⟩, by decide, by decide, by decide⟩

theorem witness_TwoAdicSplit : 1 ≤ 1 ∧ 2 ^ 4 ∣ 560 ∧ 3 ≤ 3 ∧ 3 % 2 = 1 := by decide
theorem witness_ModpowIsPower : 1 ≤ 1 := by decide
theorem witness_RoundPassesExactlyBySightings : 5 % 2 = 1 ∧ 5 ≤ 5 ∧ 2 ≤ 2 ∧ 2 ≤ 5 - 2 ∧ 3 ≤ 5 - 2 := by decide

/-- M8, and PRIMETEST of 9 and of 4 with verdict 0. -/
theorem witness_VerdictZeroProvesComposite :
    (9 % 2 = 1 ∧ 5 ≤ 9 ∧ 2 ≤ 2 ∧ 2 ≤ 9 - 2 ∧ mrRound 9 2 = false) ∧
      (Nat.Prime 5 ∧ 5 ≤ 5 ∧ 2 ≤ 3 ∧ 3 ≤ 5 - 2) ∧
      (drawsInRange 9 [2] = true ∧ primetestProgram 9 5 [2] = some false) ∧
      (drawsInRange 4 [] = true ∧ primetestProgram 4 5 [] = some false) := by decide

theorem witness_EgcdFollowsItsRecursion : 0 < 1 := by decide
theorem witness_EgcdCoefficientsFit :
    0 < (egcd 240 46).g ∧ blank.par.Ok ∧ 2 ^ 64 - 1 < 2 ^ blank.par.opw ∧ 0 < 2 ^ blank.par.opw := by decide

/-- I1, I13, I10. -/
theorem witness_ModinvIsTheInverse :
    1 ≤ 7 ∧ modinv 3 7 = some 5 ∧ (3 : Int) * (-2) + 7 * 1 = 1 ∧ 1 ≤ 9 ∧ modinv 6 9 = none ∧
      1 ≤ 1 ∧ modinv 0 1 = some 0 := by decide

end Sys2Proof.Tests
end

section
/-! SUPPORT. The scope's obligations (00_scope.md R4, R5, R11): `v2` by what it divides, what no step changes, and the
block after reset. -/

namespace Sys2Proof.Machine

open Sys2Proof

/-! The two-adic split (00_scope.md R11). -/

/-- At fuel that is enough the loop counts every factor 2. -/
theorem v2Loop_eq_padicValNat (fuel m : Nat) (hm : 0 < m) (h : m < 2 ^ (fuel + 1)) :
    v2Loop fuel m = padicValNat 2 m := by
  induction fuel generalizing m with
  | zero =>
    have : m = 1 := by omega
    subst this; simp [v2Loop]
  | succ fuel ih =>
    simp only [v2Loop]
    split
    · exact (padicValNat.eq_zero_of_not_dvd (by omega)).symm
    · have hdvd : 2 ∣ m := by omega
      have hpos := one_le_padicValNat_of_dvd (by omega : m ≠ 0) hdvd
      rw [ih (m / 2) (by omega) (by rw [pow_succ] at h; omega), padicValNat.div hdvd]
      omega

theorem v2_eq_padicValNat {m : Nat} (hm : 0 < m) : v2 m = padicValNat 2 m :=
  v2Loop_eq_padicValNat _ m hm Nat.lt_log2_self

theorem two_pow_dvd_iff_le_v2 {m : Nat} (hm : 0 < m) (r : Nat) : 2 ^ r ∣ m ↔ r ≤ v2 m := by
  rw [v2_eq_padicValNat hm, padicValNat_dvd_iff_le (by omega)]

theorem two_pow_v2_dvd {m : Nat} (hm : 0 < m) : 2 ^ v2 m ∣ m := (two_pow_dvd_iff_le_v2 hm _).2 le_rfl

/-- An even cofactor would give one more factor 2. -/
theorem div_two_pow_v2_odd {m : Nat} (hm : 0 < m) : m / 2 ^ v2 m % 2 = 1 := by
  by_contra heven
  have hdvd : 2 ^ (v2 m + 1) ∣ m := by
    rw [pow_succ]
    exact Nat.mul_dvd_of_dvd_div (two_pow_v2_dvd hm) (by omega)
  have := (two_pow_dvd_iff_le_v2 hm _).1 hdvd
  omega

theorem one_le_v2_of_even {m : Nat} (hm : 0 < m) (heven : m % 2 = 0) : 1 ≤ v2 m :=
  (two_pow_dvd_iff_le_v2 hm 1).1 (by omega)

/-! What no step changes (00_scope.md R4, R5; 10_state.md R22). -/

@[simp] theorem accept_par (w : Word) (s : State) : (accept w s).par = s.par := by
  obtain ⟨i, _, e⟩ | ⟨why, _, e⟩ := accept_cases w s <;> rw [e]
  · exact acceptLegal_par w s
  · exact acceptIllegal_par w s

@[simp] theorem busWrite_par (off : Nat) (lanes : BitVec 4) (w : Word) (s : State) :
    (busWrite off lanes w s).par = s.par := by
  obtain e | ⟨_, e⟩ | ⟨_, _, _, e⟩ | ⟨_, _, e⟩ | e | ⟨_, k, i, _, e⟩ := busWrite_cases off lanes w s <;> rw [e]
  · exact overrun_par s
  · exact accept_par w s
  · exact State.setVWord_par s k i w

/-- No agent's turn changes OPW or BASE. -/
theorem step_par {s t : State} (h : step s = .next t) : t.par = s.par := by
  cases step_cases h with
  | idle q w h hb => rw [h]
  | run q w i hb hc h => exact (exec_frame h).1
  | read q x d h => rw [h]
  | write acc w q off hi ha ho h => rw [h, busWrite_par]
  | reset q hi h => rw [h, resetInput_par]

theorem paramWord_congr {s t : State} (h : t.par = s.par) : t.paramWord = s.paramWord := by
  unfold State.paramWord; rw [h]

/-! The block after reset (70_reset_and_hazards.md R250). -/

/-- For every OPW and BASE in range the block after reset meets the invariant: with nothing in flight and every field
0, only the range of the parameters is left. -/
theorem resetWith_inv {p : Params} (hp : p.Ok) : (State.resetWith p).Inv where
  params := hp
  registers := fun k => by simp [State.vreg, State.resetWith]
  operands := ⟨Nat.two_pow_pos _, Nat.two_pow_pos _, Nat.two_pow_pos _⟩
  record := fun hb => nomatch hb
  request := ⟨rfl, fun hw => nomatch hw⟩
  status := by simp [State.StatusConsistent, State.resetWith]
  port := rfl

end Sys2Proof.Machine

open Sys2Proof Sys2Proof.Machine

/-- Settles O8: the parameters that reset takes are in range. -/
theorem resetStateMeetsInvariant : Obligations.ResetStateMeetsInvariant := by
  unfold Obligations.ResetStateMeetsInvariant State.reset
  exact resetWith_inv (by simpa only [Params.Ok] using config_ok)

/-- Settles O11: PARAM reads from the parameters, and every turn leaves them. -/
theorem parametersNeverChange : Obligations.ParametersNeverChange :=
  fun _ _ h => ⟨step_par h, paramWord_congr (step_par h)⟩

/-- Settles O49: every clause follows from which powers of two divide m. -/
theorem twoAdicSplit : Obligations.TwoAdicSplit := by
  refine ⟨fun m hm => ⟨two_pow_v2_dvd hm, fun r => (two_pow_dvd_iff_le_v2 hm r).1⟩, fun n hn hodd => ?_⟩
  have hpos : 0 < n - 1 := by omega
  exact ⟨one_le_v2_of_even hpos (by omega), (Nat.mul_div_cancel' (two_pow_v2_dvd hpos)).symm,
    div_two_pow_v2_odd hpos⟩

end

section
/-! SUPPORT. The invariant of the machine (10_state.md R24 to R32; 40_primality.md R132; 42_gcd_inverse.md R184): EGCD's
triple fits a V register, the Entropy port is empty again after every turn, and what each operation keeps. -/

namespace Sys2Proof.Machine

open Sys2Proof

/-! EGCD's triple (42_gcd_inverse.md R180, R182, R184). -/

theorem egcd_succ {a : Nat} (ha : 0 < a) (b : Nat) :
    egcd a b =
      ⟨(egcd (b % a) a).g, (egcd (b % a) a).y - ((b / a : Nat) : Int) * (egcd (b % a) a).x, (egcd (b % a) a).x⟩ := by
  have hfuel : egcdLoop a (b % a) a = egcd (b % a) a :=
    egcdLoop_fuel a (b % a + 1) (b % a) a (Nat.mod_lt _ ha) (by omega)
  rw [← hfuel, egcd, egcdLoop, if_neg (by omega)]

theorem egcd_g (a b : Nat) : (egcd a b).g = Nat.gcd a b := by
  induction a, b using Nat.gcd.induction with
  | H0 b => simp [egcd_zero]
  | H1 a b ha ih => rw [egcd_succ ha, Nat.gcd_rec]; exact ih

/-- Each coefficient is bounded by the other operand; only where that one is 0 is it 1. -/
theorem egcd_natAbs_le (a b : Nat) : (egcd a b).x.natAbs ≤ max b 1 ∧ (egcd a b).y.natAbs ≤ max a 1 := by
  induction a, b using Nat.gcd.induction with
  | H0 b => simp [egcd_zero]
  | H1 a b ha ih =>
    obtain ⟨hx, hy⟩ := ih
    rw [egcd_succ ha]
    refine ⟨?_, hx⟩
    by_cases hr : b % a = 0
    · simp [hr, egcd_zero]
    · calc ((egcd (b % a) a).y - ((b / a : Nat) : Int) * (egcd (b % a) a).x).natAbs
          ≤ (egcd (b % a) a).y.natAbs + (((b / a : Nat) : Int) * (egcd (b % a) a).x).natAbs := Int.natAbs_sub_le _ _
        _ = (egcd (b % a) a).y.natAbs + b / a * (egcd (b % a) a).x.natAbs := by
            rw [Int.natAbs_mul, Int.natAbs_natCast]
        _ ≤ b % a + b / a * a :=
            Nat.add_le_add (by omega) (Nat.mul_le_mul_left _ (by omega))
        _ = b := by rw [Nat.mul_comm]; exact Nat.mod_add_div b a
        _ ≤ max b 1 := le_max_left _ _

/-- The whole triple fits a register of any width that holds both operands. -/
theorem egcd_lt_two_pow {a b n : Nat} (hn : 0 < n) (ha : a < 2 ^ n) (hb : b < 2 ^ n) :
    (egcd a b).g < 2 ^ n ∧ (egcd a b).x.natAbs < 2 ^ n ∧ (egcd a b).y.natAbs < 2 ^ n := by
  have h1 : 1 < 2 ^ n := Nat.one_lt_two_pow (by omega)
  obtain ⟨hx, hy⟩ := egcd_natAbs_le a b
  refine ⟨?_, by omega, by omega⟩
  rw [egcd_g]
  obtain rfl | hpos := Nat.eq_zero_or_pos a
  · rwa [Nat.gcd_zero_left]
  · exact lt_of_le_of_lt (Nat.gcd_le_left b hpos) ha

theorem Params.opw_pos {p : Params} (h : p.Ok) : 0 < p.opw := by
  obtain ⟨hlow, _, _⟩ := h
  unfold Params.opw
  omega

/-! The Entropy port. -/

theorem answered_of_request {s : State} {w : Nat} (hr : s.job.wreq = true) (h2 : 2 ≤ w) (h3 : w ≤ s.job.a - 2) :
    ({ s with witness := some w } : State).answered = some w := by
  simp [State.answered, hr, h2, h3]

/-- The Engine step of a command empties the port, unless it finds there a number that answers nothing. -/
theorem exec_port {i : Instr} {s t : State} (h : exec i s = .next t) (hs : s.answered = none → s.witness = none) :
    t.witness = none := by
  cases exec_cases h with
  | waits rd ra k hi ht hk ha => exact hs ha
  | _ => rfl

theorem engineStep_port {s t : State} (h : engineStep s = .next t)
    (hs : s.witness = none ∨ s.busy = true ∧ s.answered ≠ none) : t.witness = none := by
  unfold engineStep at h
  split at h
  · split at h
    · exact exec_port h (fun hn => hs.elim id fun ⟨_, ha⟩ => absurd hn ha)
    · cases h
  · cases h
    exact hs.elim id fun ⟨hb, _⟩ => absurd hb ‹_›

@[simp] theorem accept_witness (w : Word) (s : State) : (accept w s).witness = s.witness := by
  obtain ⟨i, _, e⟩ | ⟨why, _, e⟩ := accept_cases w s <;> rw [e]
  · exact acceptLegal_witness w s
  · exact acceptIllegal_witness w s

@[simp] theorem busWrite_witness (off : Nat) (lanes : BitVec 4) (w : Word) (s : State) :
    (busWrite off lanes w s).witness = s.witness := by
  obtain e | ⟨_, e⟩ | ⟨_, _, _, e⟩ | ⟨_, _, e⟩ | e | ⟨_, k, i, _, e⟩ := busWrite_cases off lanes w s <;> rw [e]
  · exact overrun_witness s
  · exact accept_witness w s
  · exact State.setVWord_witness s k i w

@[simp] theorem busRead_witness (off : Nat) (lanes : BitVec 4) (s : State) :
    (busRead off lanes s).witness = s.witness := by
  obtain ⟨x, e⟩ | ⟨k, i, _, _, _, e⟩ := busRead_cases off lanes s <;> rw [e]

/-- While a witness is asked for, a PRIMETEST that needs one is in flight (40_primality.md R132). -/
theorem State.Inv.of_wreq {s : State} (h : s.Inv) (hr : s.job.wreq = true) :
    s.busy = true ∧ s.job.opc = 2 ∧ needsWitness s.job.a s.job.imm = true ∧
      s.job.doneRounds.toNat < s.job.imm.toNat := by
  obtain ⟨hexact, hrounds⟩ := h.request
  have hall := hexact.symm.trans hr
  simp only [Bool.and_eq_true, beq_iff_eq] at hall
  obtain ⟨⟨hbusy, hopc⟩, hneeds⟩ := hall
  exact ⟨hbusy, hopc, hneeds, hrounds hr⟩

theorem answerStep_port {s t : State} {w : Nat} (hinv : s.Inv) (h : answerStep w s = .next t) : t.witness = none := by
  unfold answerStep State.witnessRequest at h
  by_cases hr : s.job.wreq = true
  · rw [if_pos hr] at h
    simp only at h
    split at h
    · rename_i hw
      have ha := answered_of_request hr hw.1 hw.2
      exact engineStep_port h (.inr ⟨(hinv.of_wreq hr).1, by rw [ha]; exact Option.some_ne_none w⟩)
    · cases h
  · rw [if_neg hr] at h
    cases h
    exact hinv.port

/-- The Entropy port is empty again after every turn: an answer in range is consumed in the step that delivers it. -/
theorem step_port {s t : State} (hinv : s.Inv) (h : step s = .next t) : t.witness = none := by
  cases hin : s.inputs with
  | nil =>
    rw [step_nil hin] at h
    exact engineStep_port h (.inl hinv.port)
  | cons e rest =>
    rw [step_cons hin] at h
    have hinv := hinv.inputs rest
    cases e with
    | read acc =>
      simp only [perform] at h
      split at h <;> cases h
      simpa using hinv.port
    | write acc w =>
      simp only [perform] at h
      split at h <;> cases h
      simpa using hinv.port
    | engine => exact engineStep_port h (.inl hinv.port)
    | answer w => exact answerStep_port hinv h
    | staleAnswer w => cases h; exact hinv.port
    | reset => cases h; exact resetInput_witness _

/-! What each operation of the block keeps. -/

/-- The invariant speaks of OPW and BASE, the registers, S, STATUS and the port alone. -/
theorem State.Inv.congr {s t : State} (h : s.Inv) (hp : t.par = s.par) (hv : t.v = s.v) (hj : t.job = s.job)
    (hs : t.status = s.status) (hw : t.witness = none) : t.Inv := by
  obtain ⟨params, registers, operands, record, request, status, -⟩ := h
  cases s
  cases t
  cases hp; cases hv; cases hj; cases hs
  exact ⟨params, registers, operands, record, request, status, hw⟩

/-- With no result flag set, ERR has only to go with an error code. -/
theorem statusConsistent_of_no_flag {s : State} (he : s.status.err = (s.status.ecode != .none))
    (hr : s.status.rflag = false) (hx : s.status.xneg = false) (hy : s.status.yneg = false) : s.StatusConsistent := by
  simp [State.StatusConsistent, he, hr, hx, hy]

theorem State.Inv.overrun {s : State} (h : s.Inv) : (overrun s).Inv := h.congr rfl rfl rfl rfl h.port

theorem State.Inv.setVWord {s : State} (h : s.Inv) (k : Reg) {i : Nat} (w : Word) (hi : i < s.par.opwWords) :
    (s.setVWord k i w).Inv where
  params := h.params
  registers := fun j => by
    rw [vreg_setVWord]
    split
    · exact setWord_lt hi (h.registers k)
    · exact h.registers j
  operands := h.operands
  record := h.record
  request := h.request
  status := h.status
  port := h.port

theorem State.Inv.acceptIllegal {s : State} (h : s.Inv) (w : Word) (hb : s.busy = false) : (acceptIllegal w s).Inv where
  params := h.params
  registers := h.registers
  operands := h.operands
  record := fun hb' => absurd hb' (by simpa [State.busy] using hb)
  request := h.request
  status := statusConsistent_of_no_flag rfl rfl rfl rfl
  port := h.port

/-- The request that acceptance makes: the first of at least one round is still to come (40_primality.md R132). -/
theorem requestExact_acceptLegal (w : Word) (s : State) : (acceptLegal w s).RequestExact := by
  refine ⟨rfl, fun hr => ?_⟩
  have hk : fieldImm w ≠ 0 := by
    simp only [acceptLegal_job, acceptedJob, needsWitness, Bool.and_eq_true, bne_iff_ne] at hr
    exact hr.2.2
  exact Nat.pos_of_ne_zero (fun h0 => hk (BitVec.eq_of_toNat_eq h0))

theorem State.Inv.acceptLegal {s : State} (h : s.Inv) {w : Word} {i : Instr} (hd : decode w = .legal i) :
    (acceptLegal w s).Inv where
  params := h.params
  registers := h.registers
  operands := ⟨sourceValue_lt _ (h.registers _), sourceValue_lt _ (h.registers _), sourceValue_lt _ (h.registers _)⟩
  record := fun _ => by
    rw [acceptLegal_job, word_acceptedJob, command_acceptedJob s hd, hd]
    exact ⟨rfl, rfl, rfl⟩
  request := requestExact_acceptLegal w s
  status := statusConsistent_of_no_flag rfl rfl rfl rfl
  port := h.port

theorem State.Inv.accept {s : State} (h : s.Inv) (w : Word) (hb : s.busy = false) : (accept w s).Inv := by
  obtain ⟨i, hd, e⟩ | ⟨why, -, e⟩ := accept_cases w s <;> rw [e]
  · exact h.acceptLegal hd
  · exact h.acceptIllegal w hb

theorem State.Inv.busWrite {s : State} (h : s.Inv) {off : Nat} (lanes : BitVec 4) (w : Word) (ho : off < 0x5000) :
    (busWrite off lanes w s).Inv := by
  obtain e | ⟨-, e⟩ | ⟨hb, -, -, e⟩ | ⟨-, -, e⟩ | e | ⟨-, k, i, hp, e⟩ := busWrite_cases off lanes w s <;> rw [e]
  · exact h
  · exact h.overrun
  · exact h.accept w hb
  · exact h.congr rfl rfl rfl rfl h.port
  · exact h.congr rfl rfl rfl rfl h.port
  · exact h.setVWord k w (placeOf_vword hp ho).1

theorem State.Inv.resetInput {s : State} (h : s.Inv) : (resetInput s).Inv :=
  (resetWith_inv h.params).congr rfl rfl rfl rfl rfl

/-- A successful completion: values that fit the registers, and flags that name the command. -/
theorem completeOk_inv {s : State} {writes : List (Reg × Nat)} {r x y : Bool} (hp : s.par.Ok)
    (hv : s.RegistersInRange) (ho : s.OperandsInRange) (hw : ∀ k q, (k, q) ∈ writes → q < 2 ^ s.par.opw)
    (hr : r = true → s.status.lastop = 1 ∨ s.status.lastop = 2) (hxy : x = true ∨ y = true → s.status.lastop = 5) :
    (completeOk writes r x y s).Inv where
  params := hp
  registers := fun k => forall_getElem_writeAll writes s.v hw hv k
  operands := ho
  record := fun hb => (nomatch hb)
  request := ⟨rfl, fun hq => (nomatch hq)⟩
  status := ⟨rfl, fun he => (nomatch he), hr, hxy⟩
  port := rfl

theorem completeError_inv {s : State} {code : ErrCode} (hp : s.par.Ok) (hv : s.RegistersInRange)
    (ho : s.OperandsInRange) (hc : code ≠ .none) : (completeError code s).Inv where
  params := hp
  registers := hv
  operands := ho
  record := fun hb => (nomatch hb)
  request := ⟨rfl, fun hq => (nomatch hq)⟩
  status := statusConsistent_of_no_flag (bne_iff_ne.2 hc).symm rfl rfl rfl
  port := rfl

/-- While a command is in flight LASTOP is its opcode (60_exceptions.md R212). -/
theorem State.Inv.lastop {s : State} (h : s.Inv) (hb : s.busy = true) : s.status.lastop = s.job.opc := by
  obtain ⟨-, -, hstatus⟩ := h.record hb
  rw [hstatus]
  rfl

theorem State.Inv.nextRound {s : State} (h : s.Inv) (hw : s.job.wreq = true) (hd : s.job.doneRounds + 1 ≠ s.job.imm) :
    ({ s with job.doneRounds := s.job.doneRounds + 1, job.wreq := true, witness := none } : State).Inv where
  params := h.params
  registers := h.registers
  operands := h.operands
  record := h.record
  request := by
    obtain ⟨hexact, -⟩ := h.request
    obtain ⟨-, -, -, hlt⟩ := h.of_wreq hw
    exact ⟨hw.symm.trans hexact, fun _ => by bv_omega⟩
  status := h.status
  port := rfl

/-- The Engine step of the command in flight, whatever the port holds, once it has emptied the port. -/
theorem exec_inv {s t : State} {i : Instr} {w : Option Nat} (h : s.Inv) (hb : s.busy = true)
    (hc : s.job.command? = some i) (he : exec i { s with witness := w } = .next t) (hport : t.witness = none) :
    t.Inv := by
  obtain ⟨hmr, hpt, hegcd, -⟩ := opc_of_command hc
  have hlast := h.lastop hb
  have h1 : 1 < 2 ^ s.par.opw := Nat.one_lt_two_pow (Params.opw_pos h.params).ne'
  cases exec_cases he with
  | verdict v rd d hi =>
    refine completeOk_inv h.params h.registers h.operands (fun k q hq => ?_) (fun _ => ?_) (fun hxy => ?_)
    · obtain ⟨rfl, rfl⟩ := by simpa using hq
      exact lt_of_le_of_lt (Bool.toNat_le v) h1
    · obtain ⟨ra, rb, rfl⟩ | ⟨ra, k, rfl⟩ := hi
      · exact .inl (hlast.trans (hmr rd ra rb rfl))
      · exact .inr (hlast.trans (hpt rd ra k rfl).1)
    · exact hxy.elim (nomatch ·) (nomatch ·)
  | residue rd q hi hc0 hq =>
    refine completeOk_inv h.params h.registers h.operands (fun k q' hq' => ?_) (nomatch ·)
      (fun hxy => hxy.elim (nomatch ·) (nomatch ·))
    obtain ⟨rfl, rfl⟩ := by simpa using hq'
    exact hq.trans h.operands.2.2
  | bezout rd ra rb rc ry hi =>
    refine completeOk_inv h.params h.registers h.operands (fun k q hq => ?_) (nomatch ·)
      (fun _ => hlast.trans (hegcd rd ra rb rc ry hi))
    obtain ⟨ha, hb, -⟩ := h.operands
    obtain ⟨hg, hx, hy⟩ := egcd_lt_two_pow (Params.opw_pos h.params) ha hb
    simp only [List.mem_cons, Prod.mk.injEq, List.not_mem_nil, or_false] at hq
    obtain ⟨-, rfl⟩ | ⟨-, rfl⟩ | ⟨-, rfl⟩ := hq
    · exact hg
    · exact hx
    · exact hy
  | error code hcode => exact completeError_inv h.params h.registers h.operands hcode
  | waits rd ra k hi ht hk ha => exact h.congr rfl rfl rfl rfl hport
  | nextRound rd ra k d hi ha hm hd =>
    have hwreq : s.job.wreq = true := by
      by_contra hn
      simp [State.answered, hn] at ha
    obtain ⟨-, rfl⟩ := hpt rd ra k hi
    exact h.nextRound hwreq hd

theorem step_inv {s t : State} (h : s.Inv) (hst : step s = .next t) : t.Inv := by
  have hport := step_port h hst
  cases step_cases hst with
  | idle q w ht hb => subst ht; exact h.congr rfl rfl rfl rfl hport
  | run q w i hb hc he => exact exec_inv (h.inputs q) hb hc he hport
  | read q x d ht => subst ht; exact h.congr rfl rfl rfl rfl hport
  | write acc w q off hi ha ho ht => rw [ht]; exact (h.inputs q).busWrite acc.lanes w ho
  | reset q hi ht => rw [ht]; exact (h.inputs q).resetInput

end Sys2Proof.Machine

open Sys2Proof Sys2Proof.Machine

/-- Settles O9: agent by agent; the Engine's turn needs R184's bounds for EGCD, and an answer in range is consumed in
the step that delivers it. -/
theorem stepKeepsInvariant : Obligations.StepKeepsInvariant := fun _ _ => step_inv

end

section
/-! SUPPORT. When the control state moves: DONE and OVR (10_state.md R35, R36), a V register (R32, R33), BUSY and LASTOP
(R24, R29). Each claim goes through `step_view`, what a Host sees of a step. -/

namespace Sys2Proof.Machine

open Sys2Proof

theorem access_eq_wordAccess {p : Params} {acc : Access} {off : Nat} (ha : acc.addr = p.base + off)
    (hl : acc.lanes = 0xF) : acc = p.wordAccess off := by
  obtain ⟨addr, lanes⟩ := acc
  cases ha
  cases hl
  rfl

/-- A write inside the region leaves S as it is, unless it is the write to CMD that accepts a legal word. -/
theorem busWrite_job (off : Nat) (lanes : BitVec 4) (w : Word) (s : State) :
    (busWrite off lanes w s).job = s.job ∨
      s.busy = false ∧ off = 0x008 ∧ lanes = 0xF ∧ ∃ i, decode w = .legal i := by
  obtain e | ⟨-, e⟩ | ⟨hb, ho, hl, e⟩ | ⟨-, -, e⟩ | e | ⟨-, k, i, -, e⟩ := busWrite_cases off lanes w s <;> rw [e]
  · exact .inl rfl
  · exact .inl (overrun_job s)
  · obtain ⟨i, hd, -⟩ | ⟨why, -, e⟩ := accept_cases w s
    · exact .inr ⟨hb, ho, hl, i, hd⟩
    · exact .inl (by rw [e, acceptIllegal_job])
  · exact .inl rfl
  · exact .inl rfl
  · exact .inl (State.setVWord_job s k i w)

theorem busWrite_busy (off : Nat) (lanes : BitVec 4) (w : Word) {s : State} (hb : s.busy = true) :
    (busWrite off lanes w s).busy = true := by
  obtain hj | ⟨hb', -⟩ := busWrite_job off lanes w s
  · rw [State.busy, hj]; exact hb
  · rw [hb'] at hb; cases hb

/-- A write inside the region leaves STATUS as it is, unless it is an idle write to CMD, whose OPC LASTOP takes. -/
theorem busWrite_lastop (off : Nat) (lanes : BitVec 4) (w : Word) (s : State) :
    (busWrite off lanes w s).status.lastop = s.status.lastop ∨
      s.busy = false ∧ off = 0x008 ∧ lanes = 0xF ∧ (busWrite off lanes w s).status.lastop = fieldOpc w := by
  obtain e | ⟨-, e⟩ | ⟨hb, ho, hl, e⟩ | ⟨-, -, e⟩ | e | ⟨-, k, i, -, e⟩ := busWrite_cases off lanes w s <;> rw [e]
  · exact .inl rfl
  · exact .inl (by rw [overrun_status])
  · refine .inr ⟨hb, ho, hl, ?_⟩
    obtain ⟨i, -, e⟩ | ⟨why, -, e⟩ := accept_cases w s <;> rw [e]
    · rfl
    · rfl
  · exact .inl rfl
  · exact .inl rfl
  · exact .inl (by rw [State.setVWord_status])

/-- Everything a write inside the region can do to DONE: nothing, the record of an ILLEGAL word, or a clear. -/
theorem busWrite_done (off : Nat) (lanes : BitVec 4) (w : Word) (s : State) :
    (busWrite off lanes w s).events.done = s.events.done ∨
    (s.busy = false ∧ off = 0x008 ∧ lanes = 0xF ∧ (∃ why, decode w = .illegal why) ∧
      busWrite off lanes w s = acceptIllegal w s) ∨
    (off = 0x010 ∧ lanes = 0xF ∧ (busWrite off lanes w s).events.done = (s.events.done && !w.getLsbD 0)) := by
  obtain e | ⟨-, e⟩ | ⟨hb, ho, hl, e⟩ | ⟨ho, hl, e⟩ | e | ⟨-, k, i, -, e⟩ := busWrite_cases off lanes w s <;> rw [e]
  · exact .inl rfl
  · exact .inl (by rw [overrun_events])
  · obtain ⟨i, -, e⟩ | ⟨why, hd, e⟩ := accept_cases w s <;> rw [e]
    · exact .inl (by rw [acceptLegal_events])
    · exact .inr (.inl ⟨hb, ho, hl, ⟨why, hd⟩, rfl⟩)
  · exact .inr (.inr ⟨ho, hl, rfl⟩)
  · exact .inl rfl
  · exact .inl (by rw [State.setVWord_events])

/-- OVR rises at a dropped write alone. -/
theorem busWrite_ovr {off : Nat} {lanes : BitVec 4} {w : Word} {s : State} (h0 : s.events.ovr = false)
    (h1 : (busWrite off lanes w s).events.ovr = true) : s.busy = true ∧ busWrite off lanes w s = overrun s := by
  obtain e | ⟨hb, e⟩ | ⟨-, -, -, e⟩ | ⟨-, -, e⟩ | e | ⟨-, k, i, -, e⟩ := busWrite_cases off lanes w s <;>
    rw [e] at h1 ⊢
  · rw [h0] at h1; cases h1
  · exact ⟨hb, rfl⟩
  · obtain ⟨i, -, e⟩ | ⟨why, -, e⟩ := accept_cases w s <;> rw [e] at h1
    · rw [acceptLegal_events, h0] at h1; cases h1
    · rw [acceptIllegal_events, h0] at h1; cases h1
  · simp [Events.w1c, h0] at h1
  · rw [h0] at h1; cases h1
  · rw [State.setVWord_events, h0] at h1; cases h1

/-- A write inside the region changes a V register only while idle and in that register's window (20_memory.md R60). -/
theorem busWrite_vreg {off : Nat} {lanes : BitVec 4} {w : Word} {s : State} {k : Reg} (ho : off < 0x5000)
    (h : (busWrite off lanes w s).vreg k ≠ s.vreg k) :
    s.busy = false ∧ 0x1000 + 0x400 * k.val ≤ off ∧ off < 0x1400 + 0x400 * k.val := by
  obtain e | ⟨-, e⟩ | ⟨-, -, -, e⟩ | ⟨-, -, e⟩ | e | ⟨hb, j, i, hp, e⟩ := busWrite_cases off lanes w s <;>
    rw [e] at h
  · exact absurd rfl h
  · exact absurd rfl h
  · obtain ⟨i, -, e⟩ | ⟨why, -, e⟩ := accept_cases w s <;> rw [e] at h <;> exact absurd rfl h
  · exact absurd rfl h
  · exact absurd rfl h
  · rw [vreg_setVWord] at h
    split at h
    · rename_i hkj
      subst hkj
      obtain ⟨-, -, hwin⟩ := placeOf_vword hp ho
      exact ⟨hb, hwin⟩
    · exact absurd rfl h

/-- What a step can do to what a Host sees of the block: BUSY, the V registers, STATUS and EVENTS. -/
inductive StepView (s t : State) : Prop
  /-- A read, a discarded answer, or an Engine step that ends no command. -/
  | quiet (hb : t.busy = s.busy) (hv : t.v = s.v) (hs : t.status = s.status) (he : t.events = s.events)
  /-- The command in flight completes. -/
  | completes (i : Instr) (hb : s.busy = true) (hc : s.job.command? = some i) (hidle : t.busy = false)
      (hv : ∀ k, k ∉ i.dests → t.vreg k = s.vreg k) (hl : t.status.lastop = s.status.lastop)
      (hd : t.events.done = true) (ho : t.events.ovr = s.events.ovr)
  | write (acc : Access) (w : Word) (q : List Input) (off : Nat) (hi : s.inputs = .write acc w :: q)
      (ha : acc.addr = s.par.base + off) (ho : off < 0x5000) (h : t = busWrite off acc.lanes w { s with inputs := q })
  | reset (q : List Input) (hi : s.inputs = .reset :: q) (h : t = resetInput { s with inputs := q })

theorem step_view {s t : State} (h : step s = .next t) : StepView s t := by
  cases step_cases h with
  | idle q w e hb => subst e; exact .quiet rfl rfl rfl rfl
  | run q w i hb hc he =>
    obtain ⟨-, -, ho, hl, -, -, -, ⟨hbusy, hev, hv, hs⟩ | ⟨hidle, hd, hv⟩⟩ := exec_frame he
    · exact .quiet hbusy hv hs hev
    · exact .completes i hb hc hidle hv hl hd ho
  | read q x d e => subst e; exact .quiet rfl rfl rfl rfl
  | write acc w q off hi ha ho e => exact .write acc w q off hi ha ho e
  | reset q hi e => exact .reset q hi e

/-! DONE (10_state.md R35). -/

theorem illegal_of_instr?_none {d : Decoded} (h : d.instr? = none) : ∃ why, d = .illegal why := by
  cases d with
  | legal i => cases h
  | illegal why => exact ⟨why, rfl⟩

theorem busWriteWord_cmd (w : Word) (s : State) :
    busWriteWord 0x008 w s = if s.busy then overrun s else accept w s := rfl

theorem done_of_command_ends {s t : State} (h : step s = .next t) (hs : s.busy = true) (ht : t.busy = false) :
    t.events.done = true ∨ ∃ rest, s.inputs = .reset :: rest := by
  cases step_view h with
  | quiet hb hv hst he => simp [hb, hs] at ht
  | completes i hb hc hidle hv hl hd ho => exact .inl hd
  | write acc w q off hi ha ho e =>
    rw [e, busWrite_busy off acc.lanes w (s := { s with inputs := q }) hs] at ht
    cases ht
  | reset q hi e => exact .inr ⟨q, hi⟩

theorem done_of_illegal_write {s t : State} {w : Word} {rest : List Input} (h : step s = .next t)
    (hb : s.busy = false) (hi : s.inputs = .write (s.par.wordAccess 0x008) w :: rest)
    (hd : (decode w).instr? = none) : t.events.done = true := by
  obtain ⟨why, hd⟩ := illegal_of_instr?_none hd
  rw [step_write hi (by decide) (by decide), busWriteWord_cmd, busy_inputs, hb] at h
  cases h
  rw [if_neg Bool.false_ne_true, accept, hd]
  exact congrArg Events.done (acceptIllegal_events w _)

theorem done_rises {s t : State} (h : step s = .next t) (h0 : s.events.done = false) (h1 : t.events.done = true) :
    (s.busy = true ∧ t.busy = false) ∨
      (s.busy = false ∧ t.busy = false ∧ t.status.ecode = .illegal ∧
        ∃ w rest, s.inputs = .write (s.par.wordAccess 0x008) w :: rest ∧ (decode w).instr? = none) := by
  cases step_view h with
  | quiet hb hv hs he => simp [he, h0] at h1
  | completes i hb hc hidle hv hl hd ho => exact .inl ⟨hb, hidle⟩
  | write acc w q off hi ha ho e =>
    obtain hd | ⟨hb, rfl, hl, ⟨why, hd⟩, e'⟩ | ⟨-, -, hd⟩ := busWrite_done off acc.lanes w { s with inputs := q }
    · simp [e, hd, h0] at h1
    · rw [e, e']
      exact .inr ⟨hb, hb, rfl, w, q, by rw [hi, access_eq_wordAccess ha hl], by rw [hd]; rfl⟩
    · simp [e, hd, h0] at h1
  | reset q hi e => simp [e] at h1

theorem done_falls {s t : State} (h : step s = .next t) (h0 : s.events.done = true) (h1 : t.events.done = false) :
    (∃ w rest, s.inputs = .write (s.par.wordAccess 0x010) w :: rest ∧ w.getLsbD 0 = true) ∨
      ∃ rest, s.inputs = .reset :: rest := by
  cases step_view h with
  | quiet hb hv hs he => simp [he, h0] at h1
  | completes i hb hc hidle hv hl hd ho => simp [hd] at h1
  | write acc w q off hi ha ho e =>
    obtain hd | ⟨-, -, -, -, e'⟩ | ⟨rfl, hl, hd⟩ := busWrite_done off acc.lanes w { s with inputs := q }
    · simp [e, hd, h0] at h1
    · simp [e, e'] at h1
    · rw [e, hd] at h1
      exact .inl ⟨w, q, by rw [hi, access_eq_wordAccess ha hl], by simpa [h0] using h1⟩
  | reset q hi e => exact .inr ⟨q, hi⟩

/-! BUSY and LASTOP (10_state.md R24, R29). -/

theorem busy_rises {s t : State} (h : step s = .next t) (h0 : s.busy = false) (h1 : t.busy = true) :
    ∃ w rest i, s.inputs = .write (s.par.wordAccess 0x008) w :: rest ∧ decode w = .legal i := by
  cases step_view h with
  | quiet hb hv hs he => simp [hb, h0] at h1
  | completes i hb hc hidle hv hl hd ho => simp [hidle] at h1
  | write acc w q off hi ha ho e =>
    obtain hj | ⟨-, rfl, hl, i, hd⟩ := busWrite_job off acc.lanes w { s with inputs := q }
    · rw [e, State.busy, hj] at h1
      exact absurd (h0.symm.trans h1) Bool.false_ne_true
    · exact ⟨w, q, i, by rw [hi, access_eq_wordAccess ha hl], hd⟩
  | reset q hi e => rw [e] at h1; cases h1

theorem lastop_changes {s t : State} (h : step s = .next t) (hne : t.status.lastop ≠ s.status.lastop) :
    (s.busy = false ∧ ∃ w rest, s.inputs = .write (s.par.wordAccess 0x008) w :: rest ∧
      t.status.lastop = w.extractLsb' 0 8) ∨ ∃ rest, s.inputs = .reset :: rest := by
  cases step_view h with
  | quiet hb hv hs he => exact absurd (by rw [hs]) hne
  | completes i hb hc hidle hv hl hd ho => exact absurd hl hne
  | write acc w q off hi ha ho e =>
    rw [e] at hne ⊢
    obtain hl | ⟨hb, rfl, hl, hlast⟩ := busWrite_lastop off acc.lanes w { s with inputs := q }
    · exact absurd hl hne
    · exact .inl ⟨hb, w, q, by rw [hi, access_eq_wordAccess ha hl], hlast⟩
  | reset q hi e => exact .inr ⟨q, hi⟩

end Sys2Proof.Machine

open Sys2Proof Sys2Proof.Machine

/-- Settles O15: one lemma for each way DONE can stand to a step. -/
theorem doneRecordsCompletions : Obligations.DoneRecordsCompletions :=
  fun _ _ h => ⟨done_of_command_ends h, fun _ _ => done_of_illegal_write h, done_rises h, done_falls h⟩

/-- Settles O16: no agent but the Host raises OVR, and the Host only where its write is dropped. -/
theorem overrunRisesOnlyAtDroppedWrite : Obligations.OverrunRisesOnlyAtDroppedWrite := by
  intro s t h h0 h1
  cases step_view h with
  | quiet hb hv hs he => simp [he, h0] at h1
  | completes i hb hc hidle hv hl hd ho => simp [ho, h0] at h1
  | write acc w q off hi ha ho e =>
    rw [e] at h1
    obtain ⟨hb, e'⟩ := busWrite_ovr (s := { s with inputs := q }) h0 h1
    exact ⟨hb, acc, w, q, hi, e.trans e'⟩
  | reset q hi e => simp [e] at h1

/-- Settles O17: an idle write stays in its window, and a completion writes the command's destinations alone. -/
theorem registersChangeOnlyByHostOrCompletion : Obligations.RegistersChangeOnlyByHostOrCompletion := by
  intro s t k h hne
  cases step_view h with
  | quiet hb hv hs he => exact absurd (by rw [State.vreg, hv]; rfl) hne
  | completes i hb hc hidle hv hl hd ho => exact .inr (.inl ⟨hb, hidle, i, hc, not_imp_comm.1 (hv k) hne⟩)
  | write acc w q off hi ha ho e =>
    rw [e] at hne
    obtain ⟨hb, hlow, hhigh⟩ := busWrite_vreg (s := { s with inputs := q }) ho hne
    exact .inl ⟨hb, acc, w, q, hi, by omega, by omega⟩
  | reset q hi e => exact .inr (.inr ⟨q, hi⟩)

/-- Settles O18: the two halves are `busy_rises` and `lastop_changes`. -/
theorem busyAndLastopFollowCmdWrites : Obligations.BusyAndLastopFollowCmdWrites :=
  fun _ _ h => ⟨busy_rises h, lastop_changes h⟩

end

section
/-! SUPPORT. The identification and control registers: the fields of the words they read as (10_state.md R22, R23, R34,
R37), which writes they take (R21 to R23, R34, R37), and the reserved offsets (R40). -/

namespace Sys2Proof.Machine

open Sys2Proof

/-! Fields side by side. -/

theorem append_toNat {m n : Nat} (x : BitVec m) (y : BitVec n) : (x ++ y).toNat = 2 ^ n * x.toNat + y.toNat := by
  rw [BitVec.toNat_append, ← Nat.shiftLeft_add_eq_or_of_lt y.isLt, Nat.shiftLeft_eq, Nat.mul_comm]

theorem flagBit_toNat (b : Bool) : (flagBit b).toNat = b.toNat := BitVec.toNat_ofBool b

/-- The word of a register that holds two flags, in bits 1 and 0. -/
def flagPair (hi lo : Bool) : Word := 0#30 ++ flagBit hi ++ flagBit lo

theorem eventsWord_eq (s : State) : s.eventsWord = flagPair s.events.ovr s.events.done := rfl

theorem irqenWord_eq (s : State) : s.irqenWord = flagPair s.irqen.ovrIe s.irqen.doneIe := rfl

theorem flagPair_toNat (hi lo : Bool) : (flagPair hi lo).toNat = lo.toNat + 2 * hi.toNat := by
  simp only [flagPair, append_toNat, flagBit_toNat, BitVec.toNat_ofNat]
  omega

theorem flagPair_getLsbD (hi lo : Bool) (b : Nat) :
    (flagPair hi lo).getLsbD b = (decide (b = 0) && lo || decide (b = 1) && hi) := by
  match b with
  | 0 => revert hi lo; decide
  | 1 => revert hi lo; decide
  | b + 2 =>
    have hlt : (flagPair hi lo).toNat < 2 ^ (b + 2) := by
      have hhi := Bool.toNat_le hi
      have hlo := Bool.toNat_le lo
      have hpos := Nat.two_pow_pos b
      rw [flagPair_toNat, pow_add]
      omega
    have htop : (flagPair hi lo).getLsbD (b + 2) = false := Nat.testBit_eq_false_of_lt hlt
    simp [htop]

theorem statusWord_toNat (s : State) :
    s.statusWord.toNat =
      s.busy.toNat + 2 * s.status.err.toNat + 4 * s.status.rflag.toNat + 8 * s.status.xneg.toNat +
        16 * s.status.yneg.toNat + 256 * s.status.ecode.code.toNat + 65536 * s.status.lastop.toNat := by
  simp only [State.statusWord, append_toNat, flagBit_toNat, BitVec.toNat_ofNat]
  omega

theorem paramWord_toNat {s : State} (hp : s.par.Ok) : s.paramWord.toNat = 0x01100000 + s.par.opwWords := by
  obtain ⟨-, hle, -⟩ := hp
  simp only [State.paramWord, append_toNat, BitVec.toNat_ofNat]
  omega

/-! Clearing and setting flags. -/

theorem flagPair_and_not (hi lo : Bool) (w : Word) :
    flagPair (hi && !w.getLsbD 1) (lo && !w.getLsbD 0) = flagPair hi lo &&& ~~~w := by
  apply BitVec.eq_of_getLsbD_eq
  intro b hb
  rw [BitVec.getLsbD_and, BitVec.getLsbD_not, flagPair_getLsbD, flagPair_getLsbD]
  match b with
  | 0 => simp
  | 1 => simp
  | b + 2 => simp

theorem flagPair_low_bits (w : Word) : flagPair (w.getLsbD 1) (w.getLsbD 0) = w &&& 0x3 := by
  have h3 : (0x3 : Word) = flagPair true true := by decide
  apply BitVec.eq_of_getLsbD_eq
  intro b hb
  rw [h3, BitVec.getLsbD_and, flagPair_getLsbD, flagPair_getLsbD]
  match b with
  | 0 => simp
  | 1 => simp
  | b + 2 => simp

theorem irq_iff (s : State) :
    s.irq = true ↔
      (s.events.done = true ∧ s.irqen.doneIe = true) ∨ (s.events.ovr = true ∧ s.irqen.ovrIe = true) := by
  simp [State.irq]

/-! What a write does at each control register's offset (20_memory.md R65). -/

theorem busWriteWord_events (w : Word) (s : State) :
    busWriteWord 0x010 w s = { s with events := s.events.w1c w } := rfl

theorem busWriteWord_irqen (w : Word) (s : State) : busWriteWord 0x014 w s = { s with irqen := irqenOf w } := rfl

theorem busWriteWord_readOnly {off : Nat} (h : off = 0x000 ∨ off = 0x004 ∨ off = 0x00C) (w : Word) (s : State) :
    busWriteWord off w s = s := by
  obtain rfl | rfl | rfl := h <;> rfl

/-! Reserved offsets (10_state.md R40). -/

theorem placeOf_reserved_control {n off : Nat} (hlow : 0x018 ≤ off) (hhigh : off < 0x1000) :
    placeOf n off = .reserved := by
  unfold placeOf
  rw [if_pos hhigh]
  split
  case h_7 => rfl
  all_goals omega

theorem placeOf_reserved_word {n i : Nat} (k : Reg) (hn : n ≤ i) (hi : i < 256) :
    placeOf n (vOffset k i) = .reserved := by
  rw [placeOf_vOffset n k hi, if_neg (by omega)]

theorem busWriteWord_reserved {off : Nat} {s : State} (h : placeOf s.par.opwWords off = .reserved) (w : Word) :
    busWriteWord off w s = s := by
  rw [busWriteWord, h]

theorem busReadWord_reserved {off : Nat} {s : State} (h : placeOf s.par.opwWords off = .reserved) :
    busReadWord off s = { s with rdata := 0 } := by
  rw [busReadWord, h]

end Sys2Proof.Machine

open Sys2Proof Sys2Proof.Machine

/-- Settles O27: both kinds of reserved offset are one place of the map, and it lies inside the region. -/
theorem reservedOffsetsAreInert : Obligations.ReservedOffsetsAreInert := by
  intro s off rest hp ha hoff
  obtain ⟨hplace, hlt⟩ : placeOf s.par.opwWords off = .reserved ∧ off < 0x5000 := by
    obtain ⟨hlow, hhigh⟩ | ⟨k, i, hn, hi, rfl⟩ := hoff
    · exact ⟨placeOf_reserved_control hlow hhigh, by omega⟩
    · exact ⟨placeOf_reserved_word k hn hi, vOffset_lt k hi⟩
  refine ⟨fun w hin => ?_, fun hin => ?_⟩
  · rw [step_write hin hlt ha, busWriteWord_reserved (s := { s with inputs := rest }) hplace]
  · rw [step_read hin hlt ha, busReadWord_reserved (s := { s with inputs := rest }) hplace]

/-- Settles O25: each word is its fields side by side. -/
theorem registerWordsHaveTheirFields : Obligations.RegisterWordsHaveTheirFields := by
  intro s hp
  refine ⟨statusWord_toNat s, paramWord_toNat hp, rfl, ?_, ?_, rfl, rfl, rfl, rfl, rfl⟩
  · rw [eventsWord_eq, flagPair_toNat]
  · rw [irqenWord_eq, flagPair_toNat]

/-- Settles O28: the register map gives a write to these offsets no effect. -/
theorem readOnlyRegistersIgnoreWrites : Obligations.ReadOnlyRegistersIgnoreWrites := by
  intro s off w rest hoff hin
  rw [step_write hin (by omega) (by omega), busWriteWord_readOnly hoff]

/-- Settles O29: an event stays exactly where the written word holds a 0 for it. -/
theorem eventsAreClearedByWritingOne : Obligations.EventsAreClearedByWritingOne := by
  intro s w rest hin
  refine ⟨_, step_write hin (by decide) (by decide), ?_, ?_, ?_⟩ <;> rw [busWriteWord_events]
  · exact flagPair_and_not s.events.ovr s.events.done w
  · rw [irq_iff]
    simp [Events.w1c, and_assoc]

/-- Settles O30: IRQEN takes bits 1:0 of the word, and irq is the events they enable. -/
theorem irqenWriteSetsEnables : Obligations.IrqenWriteSetsEnables := by
  intro s w rest hin
  refine ⟨_, step_write hin (by decide) (by decide), ?_, ?_, ?_⟩ <;> rw [busWriteWord_irqen]
  · exact flagPair_low_bits w
  · exact irq_iff _

end

section
/-! SUPPORT. What a command's outcome depends on (10_state.md R33, R41): two Engine steps on equal records, with equal
answers at the port, stay in step. -/

namespace Sys2Proof.Machine

open Sys2Proof

/-- Two outcomes agree on all that a command decides: the record, and where it completed without an error the
destinations, and STATUS but for LASTOP. -/
structure OutcomesAgree (dests : List Reg) (t u : State) : Prop where
  job : t.job = u.job
  value : ∀ k, k ∈ dests → t.status.err = false → t.vreg k = u.vreg k
  status : { t.status with lastop := 0 } = { u.status with lastop := 0 }

section Agreement

variable {s u : State} (hj : s.job = u.job)

include hj

/-- The destinations must differ for each to hold its own value: of two writes to one register the later one wins. -/
theorem completeOk_agree (writes : List (Reg × Nat)) (r x y : Bool) (hn : (writes.map Prod.fst).Nodup) :
    OutcomesAgree (writes.map Prod.fst) (completeOk writes r x y s) (completeOk writes r x y u) where
  job := by rw [completeOk_job, completeOk_job, hj]
  value := fun k hk _ => by
    obtain ⟨⟨k, q⟩, hmem, rfl⟩ := List.mem_map.1 hk
    exact (getElem_writeAll_of_mem writes s.v k q hn hmem).trans (getElem_writeAll_of_mem writes u.v k q hn hmem).symm
  status := rfl

theorem completeError_agree (dests : List Reg) (code : ErrCode) :
    OutcomesAgree dests (completeError code s) (completeError code u) where
  job := by rw [completeError_job, completeError_job, hj]
  value := fun _ _ he => nomatch he
  status := rfl

theorem completeResidue_agree (rd : Reg) (q : Nat) :
    OutcomesAgree [rd] (completeResidue rd q s) (completeResidue rd q u) :=
  completeOk_agree hj [(rd, q)] false false false (List.nodup_singleton rd)

theorem completeVerdict_agree (rd : Reg) (v : Bool) :
    OutcomesAgree [rd] (completeVerdict rd v s) (completeVerdict rd v u) :=
  completeOk_agree hj [(rd, v.toNat)] v false false (List.nodup_singleton rd)

end Agreement

/-- Two Engine steps, the first of them from `s`, leave one record; and if the command completes they agree. -/
def StaysInStep (dests : List Reg) (s t t' : State) : Prop :=
  t.job = t'.job ∧ (t.busy = false → s.busy = true → OutcomesAgree dests t t')

theorem OutcomesAgree.staysInStep {dests : List Reg} {t t' : State} (s : State) (h : OutcomesAgree dests t t') :
    StaysInStep dests s t t' := ⟨h.job, fun _ _ => h⟩

/-- A step that leaves the command in flight: only the record counts. -/
theorem staysInStep_of_busy {dests : List Reg} {s t t' : State} (hjob : t.job = t'.job) (hb : t.busy = s.busy) :
    StaysInStep dests s t t' :=
  ⟨hjob, fun hidle hbusy => absurd (hidle.symm.trans (hb.trans hbusy)) Bool.false_ne_true⟩

theorem answered_congr {s u : State} (hj : s.job = u.job) (hport : s.witness = u.witness) :
    s.answered = u.answered := by
  unfold State.answered
  rw [hj, hport]

theorem roundStep_staysInStep {s u : State} (hj : s.job = u.job) (rd : Reg) (k : BitVec 8) (w : Nat) :
    StaysInStep [rd] s (roundStep rd k w s) (roundStep rd k w u) := by
  unfold roundStep
  rw [← hj]
  split
  · split
    · refine (completeVerdict_agree ?_ rd true).staysInStep s
      rfl
    · exact staysInStep_of_busy rfl rfl
  · exact (completeVerdict_agree hj rd false).staysInStep s

theorem exec_staysInStep {i : Instr} {s u t t' : State} (hw : i.wf = true) (hj : s.job = u.job)
    (hport : s.witness = u.witness) (h : exec i s = .next t) (h' : exec i u = .next t') :
    StaysInStep i.dests s t t' := by
  cases i with
  | mrround rd ra rb =>
    simp only [exec, execMrround, Host.Outcome.next.injEq, ← hj] at h h'
    subst h h'
    split
    · exact (completeVerdict_agree hj rd _).staysInStep s
    · exact (completeError_agree hj _ _).staysInStep s
  | primetest rd ra k =>
    simp only [exec, execPrimetest, Host.Outcome.next.injEq, ← hj, ← answered_congr hj hport] at h h'
    subst h h'
    split
    · exact (completeVerdict_agree hj rd _).staysInStep s
    · split
      · exact (completeVerdict_agree hj rd _).staysInStep s
      · split
        · exact roundStep_staysInStep hj rd k _
        · exact staysInStep_of_busy hj rfl
  | modpow rd ra rb rc =>
    simp only [exec, execModpow, Host.Outcome.next.injEq, ← hj] at h h'
    subst h h'
    split
    · exact (completeError_agree hj _ _).staysInStep s
    · exact (completeResidue_agree hj rd _).staysInStep s
  | modmul rd ra rb rc =>
    simp only [exec, execModmul, Host.Outcome.next.injEq, ← hj] at h h'
    subst h h'
    split
    · exact (completeError_agree hj _ _).staysInStep s
    · exact (completeResidue_agree hj rd _).staysInStep s
  | egcd rd ra rb rc ry =>
    simp only [exec, execEgcd, Host.Outcome.next.injEq, ← hj] at h h'
    subst h h'
    refine (completeOk_agree hj _ _ _ _ ?_).staysInStep s
    exact (Laws.CommandShape.egcd rd ra rb rc ry).2.1 hw
  | modinv rd ra rc =>
    simp only [exec, execModinv, Host.Outcome.next.injEq, ← hj] at h h'
    subst h h'
    split
    · exact (completeError_agree hj _ _).staysInStep s
    · split
      · exact (completeError_agree hj _ _).staysInStep s
      · exact (completeResidue_agree hj rd _).staysInStep s

end Sys2Proof.Machine

open Sys2Proof Sys2Proof.Machine

/-- Settles O47: every test a command makes, and every value it writes, is of the record or of the answer. -/
theorem commandsReadOnlyTheRecord : Obligations.CommandsReadOnlyTheRecord := by
  intro i s s' t t' hw hj hport h h'
  obtain ⟨hjob, hagree⟩ := exec_staysInStep hw hj hport h h'
  exact ⟨hjob, fun hidle hbusy => ⟨(hagree hidle hbusy).value, (hagree hidle hbusy).status⟩⟩

end

section
/-! SUPPORT. What a command issued over written registers computes: the decoder undoes the encoder (30_encoding.md R98,
R103), the arithmetic of the commands (40_primality.md R123; 41_modexp.md R152; 42_gcd_inverse.md R182, R193), and the
two steps from the CMD write to the completion (60_exceptions.md R211 to R214). -/

namespace Sys2Proof

/-! The decoder on a command's own word (30_encoding.md R98, R103). -/

theorem decode_encode (i : Instr) (h : i.wf = true) : decode (encode i) = .legal i := by
  cases i with
  | egcd rd ra rb rc ry =>
    have hd : distinctDests rd rc ry = true := h
    simp [encode, decode, hd, fieldOpc_assemble, fieldRc_assemble, fieldRd_assemble, fieldRa_assemble,
      fieldRb_assemble, fieldRy_assemble, fieldImmHigh_assemble]
  | _ =>
    simp [encode, decode, whenZero, fieldOpc_assemble, fieldRc_assemble, fieldImm_assemble, fieldRd_assemble,
      fieldRa_assemble, fieldRb_assemble]

end Sys2Proof

namespace Sys2Proof.Machine

open Sys2Proof

/-! Powers (41_modexp.md R152). -/

theorem modpow_eq_pow_mod (b e : Nat) {m : Nat} (hm : 0 < m) : modpow b e m = b ^ e % m := by
  unfold modpow
  split
  · rename_i h1
    rw [h1, Nat.mod_one]
  · rw [modpowLoop_eq _ _ _ _ _ Nat.lt_log2_self (by omega), one_mul, ← Nat.pow_mod]

/-! A prime passes every round (40_primality.md R123). -/

/-- Modulo a prime only 1 and n - 1 square to 1. -/
theorem eq_one_or_of_sq_mod {n x : Nat} (hp : n.Prime) (hx : x < n) (h : x * x % n = 1) : x = 1 ∨ x = n - 1 := by
  have hpos : 0 < x := by
    obtain rfl | hpos := Nat.eq_zero_or_pos x
    · simp at h
    · exact hpos
  have hmod : 1 ≡ x * x [MOD n] := by rw [Nat.ModEq, h, Nat.mod_eq_of_lt hp.one_lt]
  have hdvd : n ∣ (x + 1) * (x - 1) := by
    have := (Nat.modEq_iff_dvd' (Nat.mul_pos hpos hpos)).1 hmod
    rwa [← Nat.mul_self_sub_mul_self_eq, mul_one]
  obtain hplus | hminus := hp.dvd_mul.1 hdvd
  · have := Nat.le_of_dvd (by omega) hplus
    omega
  · have := Nat.eq_zero_of_dvd_of_lt hminus (by omega)
    omega

/-- From a residue that some power 2^(k+1) takes to 1, and that is no root of 1 itself, k squarings meet n - 1. -/
theorem mrSquarings_of_prime {n : Nat} (hp : n.Prime) (k x : Nat) (hx : x < n) (h1 : x ≠ 1) (hn : x ≠ n - 1)
    (hpow : x ^ 2 ^ (k + 1) % n = 1) : mrSquarings k x n = true := by
  have hroot : x * x % n ≠ 1 := fun h => (eq_one_or_of_sq_mod hp hx h).elim h1 hn
  induction k generalizing x with
  | zero => exact absurd (by simpa [pow_two] using hpow) hroot
  | succ k ih =>
    rw [mrSquarings, if_neg hroot]
    split
    · rfl
    · rename_i hne
      have hlt : x * x % n < n := Nat.mod_lt _ hp.pos
      refine ih (x * x % n) hlt hroot hne ?_ (fun h => (eq_one_or_of_sq_mod hp hlt h).elim hroot hne)
      rw [← Nat.pow_mod, ← pow_two, ← pow_mul, ← pow_succ', hpow]

theorem mrRound_of_prime {n a : Nat} (hp : n.Prime) (h5 : 5 ≤ n) (h2 : 2 ≤ a) (ha : a ≤ n - 2) :
    mrRound n a = true := by
  have hodd : n % 2 = 1 := hp.eq_two_or_odd.resolve_left (by omega)
  have hpos : 0 < n - 1 := by omega
  have hs : v2 (n - 1) - 1 + 1 = v2 (n - 1) := Nat.sub_add_cancel (one_le_v2_of_even hpos (by omega))
  have hfermat : (a ^ ((n - 1) / 2 ^ v2 (n - 1)) % n) ^ 2 ^ (v2 (n - 1) - 1 + 1) % n = 1 := by
    have hcop : Nat.Coprime a n := (Nat.coprime_of_lt_prime (by omega) (by omega) hp).symm
    rw [← Nat.pow_mod, hs, ← pow_mul, Nat.div_mul_cancel (two_pow_v2_dvd hpos), ← Nat.totient_prime hp,
      Nat.ModEq.pow_totient hcop, Nat.mod_eq_of_lt hp.one_lt]
  simp only [mrRound, modpow_eq_pow_mod a _ hp.pos]
  split
  · rfl
  · rename_i hx
    obtain ⟨hx1, hxn⟩ := not_or.1 hx
    exact mrSquarings_of_prime hp _ _ (Nat.mod_lt _ hp.pos) hx1 hxn hfermat

theorem mrInRange_iff (n a : Nat) : mrInRange n a = true ↔ n % 2 = 1 ∧ 5 ≤ n ∧ 2 ≤ a ∧ a ≤ n - 2 := by
  simp [mrInRange, and_assoc]

theorem primeTrivial_eq_some {n : Nat} {v : Bool} (h : primeTrivial n = some v) : v = decide (n = 2 ∨ n = 3) := by
  unfold primeTrivial at h
  split at h
  · cases h
    exact (decide_eq_false (by omega)).symm
  · split at h
    · cases h
      exact (decide_eq_true ‹_›).symm
    · split at h
      · cases h
      · cases h
        exact (decide_eq_false ‹_›).symm

/-! Bézout's identity and the inverse (42_gcd_inverse.md R182, R193). -/

theorem egcd_bezout (a b : Nat) : (a : Int) * (egcd a b).x + (b : Int) * (egcd a b).y = (egcd a b).g := by
  induction a, b using Nat.gcd.induction with
  | H0 b => simp [egcd_zero]
  | H1 a b ha ih =>
    have hdiv : (b : Int) = (b % a : Nat) + a * (b / a : Nat) := by exact_mod_cast (Nat.mod_add_div b a).symm
    rw [egcd_succ ha]
    calc (a : Int) * ((egcd (b % a) a).y - (b / a : Nat) * (egcd (b % a) a).x) + b * (egcd (b % a) a).x
        = (b - a * (b / a : Nat)) * (egcd (b % a) a).x + a * (egcd (b % a) a).y := by ring
      _ = (b % a : Nat) * (egcd (b % a) a).x + a * (egcd (b % a) a).y := by rw [hdiv, add_sub_cancel_right]
      _ = (egcd (b % a) a).g := ih

theorem modinv_of_coprime {a n : Nat} (hn : 0 < n) (hg : Nat.gcd a n = 1) :
    ∃ r, modinv a n = some r ∧ r < n ∧ a * r ≡ 1 [MOD n] := by
  have hsome : modinv a n = some ((egcd a n).x % n).toNat := by simp [modinv, egcd_g, hg]
  refine ⟨_, hsome, modinv_lt hn hsome, ?_⟩
  have hr : ((((egcd a n).x % n).toNat : Nat) : Int) = (egcd a n).x % n :=
    Int.toNat_of_nonneg (Int.emod_nonneg _ (by omega))
  have hbez := egcd_bezout a n
  rw [egcd_g, hg] at hbez
  rw [← Int.natCast_modEq_iff, Nat.cast_mul, hr]
  calc (a : Int) * ((egcd a n).x % n)
      ≡ a * (egcd a n).x [ZMOD n] := (Int.mod_modEq _ _).mul_left _
    _ ≡ a * (egcd a n).x + n * (egcd a n).y [ZMOD n] := by simp [Int.ModEq]
    _ = (1 : Nat) := hbez

theorem signedValue_natAbs (x : Int) : signedValue (decide (x < 0)) x.natAbs = x := by
  obtain hneg | hpos := lt_or_ge x 0
  · rw [signedValue, decide_eq_true hneg, if_pos rfl]
    omega
  · rw [signedValue, decide_eq_false (by omega), if_neg Bool.false_ne_true]
    omega

/-! From the CMD write to the completion (60_exceptions.md R211 to R214). -/

theorem State.ready_iff (i : Instr) (s : State) :
    s.ready i = true ↔ s.busy = false ∧ i.wf = true ∧ ∀ k ∈ i.sources, s.fullyWritten k = true := by
  simp [State.ready, State.quiescent, and_assoc]

theorem step_issue {s : State} {i : Instr} {rest : List Input} (hb : s.busy = false) (hw : i.wf = true)
    (hin : s.inputs = .write (s.par.wordAccess 0x008) (encode i) :: rest) :
    step s = .next (acceptLegal (encode i) { s with inputs := rest }) := by
  rw [step_write hin (by decide) (by decide), busWriteWord_cmd, busy_inputs, hb, if_neg Bool.false_ne_true, accept,
    decode_encode i hw]

theorem step_engine_issued {s : State} {i : Instr} {rest : List Input} (hw : i.wf = true)
    (hin : s.inputs = .engine :: rest) :
    step (acceptLegal (encode i) s) = exec i (acceptLegal (encode i) { s with inputs := rest }) := by
  rw [step_cons (s := acceptLegal (encode i) s) hin]
  exact engineStep_run rfl (command_acceptedJob s (decode_encode i hw))

/-- A command issued and then run by the Engine's turn is `exec` of it on the record of its acceptance. -/
theorem runSteps_issue {s : State} {i : Instr} {rest : List Input} (hb : s.busy = false) (hw : i.wf = true)
    (hin : s.inputs = .write (s.par.wordAccess 0x008) (encode i) :: .engine :: rest) :
    runSteps 2 s = exec i (acceptLegal (encode i) { s with inputs := rest }) := by
  obtain ⟨t, ht⟩ := exec_next i (acceptLegal (encode i) { s with inputs := rest })
  have hsecond : step (acceptLegal (encode i) { s with inputs := .engine :: rest }) = .next t :=
    (step_engine_issued hw rfl).trans ht
  rw [runSteps_succ 1 (step_issue hb hw hin), runSteps_succ 0 hsecond, runSteps_zero, ht]

/-! The operands that acceptance captured (10_state.md R33). -/

section Issued

variable {s : State} {i : Instr} {k : Reg} (hsrc : ∀ k ∈ i.sources, s.fullyWritten k = true) (rest : List Input)
  (hmem : k ∈ i.sources)

include hsrc hmem

theorem issued_a (hk : fieldRa (encode i) = k) :
    (acceptLegal (encode i) { s with inputs := rest }).job.a = s.vreg k := by
  subst hk
  exact sourceValue_of_fullyWritten _ (hsrc _ hmem)

theorem issued_b (hk : fieldRb (encode i) = k) :
    (acceptLegal (encode i) { s with inputs := rest }).job.b = s.vreg k := by
  subst hk
  exact sourceValue_of_fullyWritten _ (hsrc _ hmem)

theorem issued_c (hk : fieldRc (encode i) = k) :
    (acceptLegal (encode i) { s with inputs := rest }).job.c = s.vreg k := by
  subst hk
  exact sourceValue_of_fullyWritten _ (hsrc _ hmem)

end Issued

/-! The results, on the operands of the record. -/

theorem vreg_completeResidue (rd : Reg) (q : Nat) (s : State) : (completeResidue rd q s).vreg rd = q :=
  getElem_writeAll_of_mem [(rd, q)] s.v rd q (List.nodup_singleton rd) List.mem_cons_self

theorem vreg_completeVerdict (rd : Reg) (v : Bool) (s : State) : (completeVerdict rd v s).vreg rd = v.toNat :=
  getElem_writeAll_of_mem [(rd, v.toNat)] s.v rd v.toNat (List.nodup_singleton rd) List.mem_cons_self

theorem exec_mrround_result {s t : State} {rd ra rb : Reg} (h : exec (.mrround rd ra rb) s = .next t) :
    t.quiescent = true ∧ (t.status.ecode = .none → t.vreg rd = 0 → ¬(s.job.a).Prime) ∧
      ((s.job.a).Prime → 5 ≤ s.job.a → 2 ≤ s.job.b → s.job.b ≤ s.job.a - 2 →
        t.status.ecode = .none ∧ t.vreg rd = 1) := by
  simp only [exec, execMrround, Host.Outcome.next.injEq] at h
  subst h
  split
  · rename_i hrange
    obtain ⟨-, h5, h2, hle⟩ := (mrInRange_iff _ _).1 hrange
    refine ⟨rfl, fun _ hv hp => ?_, fun hp _ _ _ => ⟨rfl, ?_⟩⟩ <;> rw [vreg_completeVerdict] at *
    · rw [mrRound_of_prime hp h5 h2 hle] at hv
      exact Nat.one_ne_zero hv
    · rw [mrRound_of_prime hp h5 h2 hle]
      rfl
  · rename_i hrange
    refine ⟨rfl, fun he => (nomatch he), fun hp h5 h2 hle => absurd ((mrInRange_iff _ _).2 ⟨?_, h5, h2, hle⟩) hrange⟩
    exact hp.eq_two_or_odd.resolve_left (by omega)

theorem exec_primetest_result {s t : State} {rd ra : Reg} {k : BitVec 8} (h : exec (.primetest rd ra k) s = .next t)
    (hn : needsWitness s.job.a k = false) (hk : k ≠ 0) :
    t.quiescent = true ∧ t.vreg rd = (if s.job.a = 2 ∨ s.job.a = 3 then 1 else 0) := by
  have hne : primeTrivial s.job.a ≠ none := fun h0 => hk (by simpa [needsWitness, h0] using hn)
  obtain ⟨v, hv⟩ := Option.ne_none_iff_exists'.1 hne
  simp only [exec, execPrimetest, hv, Host.Outcome.next.injEq] at h
  subst h
  refine ⟨rfl, ?_⟩
  rw [vreg_completeVerdict, primeTrivial_eq_some hv]
  exact Bool.cond_decide _ _ _

theorem exec_modpow_result {s t : State} {rd ra rb rc : Reg} (h : exec (.modpow rd ra rb rc) s = .next t) :
    t.quiescent = true ∧ (s.job.c ≠ 0 → t.vreg rd = s.job.a ^ s.job.b % s.job.c) := by
  simp only [exec, execModpow, Host.Outcome.next.injEq] at h
  subst h
  split
  · exact ⟨rfl, fun hc => absurd ‹_› hc⟩
  · exact ⟨rfl, fun hc => (vreg_completeResidue ..).trans (modpow_eq_pow_mod _ _ (Nat.pos_of_ne_zero hc))⟩

theorem exec_modmul_result {s t : State} {rd ra rb rc : Reg} (h : exec (.modmul rd ra rb rc) s = .next t) :
    t.quiescent = true ∧ (s.job.c ≠ 0 → t.vreg rd = s.job.a * s.job.b % s.job.c) := by
  simp only [exec, execModmul, Host.Outcome.next.injEq] at h
  subst h
  split
  · exact ⟨rfl, fun hc => absurd ‹_› hc⟩
  · exact ⟨rfl, fun _ => vreg_completeResidue ..⟩

theorem exec_egcd_completes {s t : State} {rd ra rb rc ry : Reg} (hw : (Instr.egcd rd ra rb rc ry).wf = true)
    (h : exec (.egcd rd ra rb rc ry) s = .next t) :
    CompletesOk
      [(rd, (egcd s.job.a s.job.b).g), (rc, (egcd s.job.a s.job.b).x.natAbs), (ry, (egcd s.job.a s.job.b).y.natAbs)]
      false (decide ((egcd s.job.a s.job.b).x < 0)) (decide ((egcd s.job.a s.job.b).y < 0)) s t := by
  simp only [exec, execEgcd, Host.Outcome.next.injEq] at h
  subst h
  exact completeOk_completesOk _ _ _ _ s ((Laws.CommandShape.egcd rd ra rb rc ry).2.1 hw)

theorem exec_egcd_result {s t : State} {rd ra rb rc ry : Reg} (hw : (Instr.egcd rd ra rb rc ry).wf = true)
    (h : exec (.egcd rd ra rb rc ry) s = .next t) :
    t.quiescent = true ∧ t.vreg rd = Nat.gcd s.job.a s.job.b ∧
      (s.job.a : Int) * signedValue t.status.xneg (t.vreg rc) +
        (s.job.b : Int) * signedValue t.status.yneg (t.vreg ry) = t.vreg rd := by
  have hc := exec_egcd_completes hw h
  obtain ⟨hg, -⟩ := hc.value rd (egcd s.job.a s.job.b).g (by simp)
  obtain ⟨hx, -⟩ := hc.value rc (egcd s.job.a s.job.b).x.natAbs (by simp)
  obtain ⟨hy, -⟩ := hc.value ry (egcd s.job.a s.job.b).y.natAbs (by simp)
  refine ⟨hc.quiescent, hg.trans (egcd_g _ _), ?_⟩
  rw [hg, hx, hy, hc.status, signedValue_natAbs, signedValue_natAbs, egcd_bezout]

theorem exec_modinv_result {s t : State} {rd ra rc : Reg} (h : exec (.modinv rd ra rc) s = .next t) :
    t.quiescent = true ∧ (s.job.c ≠ 0 → Nat.gcd s.job.a s.job.c = 1 →
      t.vreg rd < s.job.c ∧ s.job.a * t.vreg rd ≡ 1 [MOD s.job.c]) := by
  simp only [exec, execModinv, Host.Outcome.next.injEq] at h
  subst h
  split
  · exact ⟨rfl, fun hc => absurd ‹_› hc⟩
  · split
    · rename_i hnone
      refine ⟨rfl, fun hc hg => ?_⟩
      obtain ⟨r, hsome, -⟩ := modinv_of_coprime (Nat.pos_of_ne_zero hc) hg
      exact absurd (hnone.symm.trans hsome) (Option.some_ne_none r).symm
    · rename_i r hr
      refine ⟨rfl, fun hc hg => ?_⟩
      obtain ⟨r', hsome, hlt, hmod⟩ := modinv_of_coprime (Nat.pos_of_ne_zero hc) hg
      obtain rfl : r = r' := Option.some.inj (hr.symm.trans hsome)
      rw [vreg_completeResidue]
      exact ⟨hlt, hmod⟩

end Sys2Proof.Machine

open Sys2Proof Sys2Proof.Machine

/-- Settles O48: the record holds the registers' values, and each command's result is stated on the record. -/
theorem issuedCommandsComputeOnRegisters : Obligations.IssuedCommandsComputeOnRegisters := by
  intro s i rest hready hin
  obtain ⟨hb, hw, hsrc⟩ := (State.ready_iff i s).1 hready
  obtain ⟨t, ht⟩ := exec_next i (acceptLegal (encode i) { s with inputs := rest })
  obtain ⟨-, -, -, -, -, -, hinputs, -⟩ := exec_frame ht
  refine ⟨t, (runSteps_issue hb hw hin).trans ht, hinputs, ?_⟩
  cases i with
  | mrround rd ra rb =>
    have ha := issued_a hsrc rest (k := ra) (by simp [Instr.sources]) (fieldRa_assemble ..)
    have hb := issued_b hsrc rest (k := rb) (by simp [Instr.sources]) (fieldRb_assemble ..)
    simpa only [ha, hb] using exec_mrround_result ht
  | primetest rd ra k =>
    have ha := issued_a hsrc rest (k := ra) (by simp [Instr.sources]) (fieldRa_assemble ..)
    simpa only [ha] using exec_primetest_result ht
  | modpow rd ra rb rc =>
    have ha := issued_a hsrc rest (k := ra) (by simp [Instr.sources]) (fieldRa_assemble ..)
    have hb := issued_b hsrc rest (k := rb) (by simp [Instr.sources]) (fieldRb_assemble ..)
    have hc := issued_c hsrc rest (k := rc) (by simp [Instr.sources]) (fieldRc_assemble ..)
    simpa only [ha, hb, hc] using exec_modpow_result ht
  | modmul rd ra rb rc =>
    have ha := issued_a hsrc rest (k := ra) (by simp [Instr.sources]) (fieldRa_assemble ..)
    have hb := issued_b hsrc rest (k := rb) (by simp [Instr.sources]) (fieldRb_assemble ..)
    have hc := issued_c hsrc rest (k := rc) (by simp [Instr.sources]) (fieldRc_assemble ..)
    simpa only [ha, hb, hc] using exec_modmul_result ht
  | egcd rd ra rb rc ry =>
    have ha := issued_a hsrc rest (k := ra) (by simp [Instr.sources]) (fieldRa_assemble ..)
    have hb := issued_b hsrc rest (k := rb) (by simp [Instr.sources]) (fieldRb_assemble ..)
    simpa only [ha, hb] using exec_egcd_result hw ht
  | modinv rd ra rc =>
    have ha := issued_a hsrc rest (k := ra) (by simp [Instr.sources]) (fieldRa_assemble ..)
    have hc := issued_c hsrc rest (k := rc) (by simp [Instr.sources]) (fieldRc_assemble ..)
    simpa only [ha, hc] using exec_modinv_result ht

end

section
/-! SUPPORT. The bus (20_memory.md R60 to R69): what a read of each offset returns, which accesses the block ignores,
and what the Host's writes of V words leave in the registers. -/

namespace Sys2Proof.Machine

open Sys2Proof

theorem State.quiescent_iff (s : State) : s.quiescent = true ↔ s.busy = false := by simp [State.quiescent]

theorem State.fullyWritten_iff (s : State) (k : Reg) :
    s.fullyWritten k = true ↔ ∀ i, i < s.par.opwWords → s.wordWritten k i = true := by
  simp [State.fullyWritten]

/-! Any access inside the region (20_memory.md R62). -/

section Access
variable {s : State} {acc : Access} {rest : List Input}

theorem step_read_access (h : s.inputs = .read acc :: rest) (hlow : s.par.base ≤ acc.addr)
    (hhigh : acc.addr < s.par.base + 0x5000) :
    step s = .next (busRead (acc.addr - s.par.base) acc.lanes { s with inputs := rest }) := by
  rw [step_cons h]
  simp only [perform, Params.offset?, if_pos (And.intro hlow hhigh)]

theorem step_write_access {w : Word} (h : s.inputs = .write acc w :: rest) (hlow : s.par.base ≤ acc.addr)
    (hhigh : acc.addr < s.par.base + 0x5000) :
    step s = .next (busWrite (acc.addr - s.par.base) acc.lanes w { s with inputs := rest }) := by
  rw [step_cons h]
  simp only [perform, Params.offset?, if_pos (And.intro hlow hhigh)]

end Access

/-- BASE is aligned, so an access is aligned in the block exactly when its platform address is (00_scope.md R5). -/
theorem wholeWord_eq_false {p : Params} {acc : Access} (hp : p.Ok) (hlow : p.base ≤ acc.addr)
    (h : acc.addr % 4 ≠ 0 ∨ acc.lanes ≠ 0xF) : wholeWord (acc.addr - p.base) acc.lanes = false := by
  obtain ⟨-, -, hbase⟩ := hp
  obtain ha | hl := h
  · have hoff : (acc.addr - p.base) % 4 ≠ 0 := by omega
    simp [wholeWord, hoff]
  · rw [wholeWord, beq_eq_false_iff_ne.2 hl, Bool.and_false]

theorem busRead_narrow {off : Nat} {lanes : BitVec 4} (h : wholeWord off lanes = false) (s : State) :
    busRead off lanes s = { s with rdata := 0 } := if_neg (by rw [h]; decide)

theorem busWrite_narrow {off : Nat} {lanes : BitVec 4} (h : wholeWord off lanes = false) (w : Word) (s : State) :
    busWrite off lanes w s = s := if_neg (by rw [h]; decide)

/-! Reads of the identification and control registers (20_memory.md R64; 10_state.md R39). -/

section ControlReads
variable {s : State} {rest : List Input}

theorem step_read_id (h : s.inputs = .read (s.par.wordAccess 0x000) :: rest) :
    step s = .next { s with inputs := rest, rdata := 0x4D455850 } := step_read h (by decide) (by decide)

theorem step_read_param (h : s.inputs = .read (s.par.wordAccess 0x004) :: rest) :
    step s = .next { s with inputs := rest, rdata := s.paramWord } := step_read h (by decide) (by decide)

theorem step_read_cmd (h : s.inputs = .read (s.par.wordAccess 0x008) :: rest) :
    step s = .next { s with inputs := rest, rdata := 0 } := step_read h (by decide) (by decide)

theorem step_read_status (h : s.inputs = .read (s.par.wordAccess 0x00C) :: rest) :
    step s = .next { s with inputs := rest, rdata := s.statusWord } := step_read h (by decide) (by decide)

theorem step_read_events (h : s.inputs = .read (s.par.wordAccess 0x010) :: rest) :
    step s = .next { s with inputs := rest, rdata := s.eventsWord } := step_read h (by decide) (by decide)

theorem step_read_irqen (h : s.inputs = .read (s.par.wordAccess 0x014) :: rest) :
    step s = .next { s with inputs := rest, rdata := s.irqenWord } := step_read h (by decide) (by decide)

end ControlReads

/-! Accesses to the V windows (20_memory.md R60, R64 to R68). -/

section Windows
variable {s : State} {k : Reg} {i : Nat} {w : Word} {rest : List Input}

/-- A busy window reads 0 at every word, whether the word exists or not. -/
theorem step_read_vword_busy (h : s.inputs = .read (s.par.wordAccess (vOffset k i)) :: rest) (hi : i < 256)
    (hb : s.busy = true) : step s = .next { s with inputs := rest, rdata := 0 } := by
  rw [step_read h (vOffset_lt k hi) (vOffset_aligned k i), busReadWord_vOffset _ k hi]
  split
  · rw [readVWord, busy_inputs, if_pos hb]
  · rfl

theorem step_read_vword_known (h : s.inputs = .read (s.par.wordAccess (vOffset k i)) :: rest) (hi : i < 256)
    (hn : i < s.par.opwWords) (hb : s.busy = false) (hk : s.fullyWritten k = true) :
    step s = .next { s with inputs := rest, rdata := wordOf (s.vreg k) i } := by
  rw [step_read h (vOffset_lt k hi) (vOffset_aligned k i), busReadWord_vOffset _ k hi, if_pos hn, readVWord,
    busy_inputs, if_neg (by rw [hb]; decide), fullyWritten_inputs, if_pos hk]
  rfl

theorem step_write_vword_busy (h : s.inputs = .write (s.par.wordAccess (vOffset k i)) w :: rest) (hi : i < 256)
    (hn : i < s.par.opwWords) (hb : s.busy = true) : step s = .next (overrun { s with inputs := rest }) := by
  rw [step_write h (vOffset_lt k hi) (vOffset_aligned k i), busWriteWord_vOffset _ k w hi, if_pos hn, busy_inputs,
    if_pos hb]

theorem step_write_vword_idle (h : s.inputs = .write (s.par.wordAccess (vOffset k i)) w :: rest) (hi : i < 256)
    (hn : i < s.par.opwWords) (hb : s.busy = false) :
    step s = .next (({ s with inputs := rest } : State).setVWord k i w) := by
  rw [step_write h (vOffset_lt k hi) (vOffset_aligned k i), busWriteWord_vOffset _ k w hi, if_pos hn, busy_inputs,
    if_neg (by rw [hb]; decide)]

theorem step_write_vword_reserved (h : s.inputs = .write (s.par.wordAccess (vOffset k i)) w :: rest) (hi : i < 256)
    (hn : s.par.opwWords ≤ i) : step s = .next { s with inputs := rest } := by
  rw [step_write h (vOffset_lt k hi) (vOffset_aligned k i),
    busWriteWord_reserved (s := { s with inputs := rest }) (placeOf_reserved_word k hn hi)]

end Windows

theorem wordOf_vreg_setVWord (s : State) (k : Reg) (i : Nat) (w : Word) :
    wordOf ((s.setVWord k i w).vreg k) i = w := by
  rw [vreg_setVWord, if_pos rfl, wordOf_setWord]

/-- The byte lanes of a word are the bytes of its number, in order (20_memory.md R60). -/
theorem byteLane_wordOf (v i : Nat) {b : Nat} (hb : b < 4) :
    byteLane (wordOf v i) b = BitVec.ofNat 8 (v / 2 ^ (32 * i + 8 * b)) := by
  apply BitVec.eq_of_getLsbD_eq
  intro c hc
  rw [byteLane, BitVec.getLsbD_extractLsb', wordOf_getLsbD, BitVec.getLsbD_ofNat, Nat.testBit_div_two_pow]
  simp [hc, show 8 * b + c < 32 by omega, show 32 * i + (8 * b + c) = c + (32 * i + 8 * b) by omega]

/-! Writing several words of one register (20_memory.md R66). -/

/-- `s` after the Host's writes of the words `is` of `n` into V[k], one after another. -/
def loadWords (k : Reg) (n : Nat) : List Nat → State → State
  | [], s => s
  | i :: is, s => loadWords k n is (s.setVWord k i (wordOf n i))

/-- The queue of such writes. -/
def wordWrites (p : Params) (k : Reg) (n : Nat) (is : List Nat) : List Input :=
  is.map (fun i => .write (p.wordAccess (vOffset k i)) (wordOf n i))

theorem loadWrites_eq (p : Params) (k : Reg) (n : Nat) :
    loadWrites p k n = wordWrites p k n (List.range p.opwWords) := rfl

section LoadWords
variable (k : Reg) (n : Nat)

/-- What one word's write keeps, the writes together keep. -/
theorem loadWords_keeps {α : Type} (f : State → α) (hf : ∀ s i w, f (s.setVWord k i w) = f s) (is : List Nat)
    (s : State) : f (loadWords k n is s) = f s := by
  induction is generalizing s with
  | nil => rfl
  | cons i is ih => exact (ih _).trans (hf s i (wordOf n i))

@[simp] theorem loadWords_par (is : List Nat) (s : State) : (loadWords k n is s).par = s.par :=
  loadWords_keeps k n State.par (fun s i w => s.setVWord_par k i w) is s
@[simp] theorem loadWords_job (is : List Nat) (s : State) : (loadWords k n is s).job = s.job :=
  loadWords_keeps k n State.job (fun s i w => s.setVWord_job k i w) is s
@[simp] theorem loadWords_status (is : List Nat) (s : State) : (loadWords k n is s).status = s.status :=
  loadWords_keeps k n State.status (fun s i w => s.setVWord_status k i w) is s
@[simp] theorem loadWords_events (is : List Nat) (s : State) : (loadWords k n is s).events = s.events :=
  loadWords_keeps k n State.events (fun s i w => s.setVWord_events k i w) is s
@[simp] theorem loadWords_irqen (is : List Nat) (s : State) : (loadWords k n is s).irqen = s.irqen :=
  loadWords_keeps k n State.irqen (fun s i w => s.setVWord_irqen k i w) is s
@[simp] theorem loadWords_inputs (is : List Nat) (s : State) : (loadWords k n is s).inputs = s.inputs :=
  loadWords_keeps k n State.inputs (fun s i w => s.setVWord_inputs k i w) is s

theorem vreg_loadWords_of_ne (is : List Nat) (s : State) {j : Reg} (hj : j ≠ k) :
    (loadWords k n is s).vreg j = s.vreg j :=
  loadWords_keeps k n (State.vreg · j) (fun s i w => by rw [vreg_setVWord, if_neg hj]) is s

/-- A bit of V[k] is that of `n` where its word is among those written, and the old one elsewhere. -/
theorem vreg_loadWords_testBit (is : List Nat) (s : State) (b : Nat) :
    ((loadWords k n is s).vreg k).testBit b = if b / 32 ∈ is then n.testBit b else (s.vreg k).testBit b := by
  induction is generalizing s with
  | nil => simp [loadWords]
  | cons i is ih =>
    rw [loadWords, ih, vreg_setVWord, if_pos rfl, setWord_testBit]
    by_cases hi : b / 32 = i
    · subst hi
      have hbit : (wordOf n (b / 32)).getLsbD (b - 32 * (b / 32)) = n.testBit b := by
        rw [wordOf_getLsbD, Nat.add_sub_of_le (Nat.mul_div_le b 32)]
        simp [show b - 32 * (b / 32) < 32 by omega]
      rw [if_pos (show 32 * (b / 32) ≤ b ∧ b < 32 * (b / 32) + 32 by omega), hbit, ite_self,
        if_pos List.mem_cons_self]
    · rw [if_neg (show ¬(32 * i ≤ b ∧ b < 32 * i + 32) by omega)]
      simp [hi]

theorem wordWritten_loadWords {is : List Nat} (hlt : ∀ i ∈ is, i < 256) (s : State) (j : Reg) (h : Nat) :
    (loadWords k n is s).wordWritten j h =
      (s.wordWritten j h || (decide (j = k) && decide (h ∈ is))) := by
  induction is generalizing s with
  | nil => simp [loadWords]
  | cons i is ih =>
    obtain ⟨hi, his⟩ := List.forall_mem_cons.1 hlt
    rw [loadWords, ih his, wordWritten_setVWord _ _ _ _ _ _ hi]
    simp only [List.mem_cons, Bool.decide_or, Bool.and_or_distrib_left, Bool.or_assoc]

/-- The idle block takes one such write each step. -/
theorem runSteps_wordWrites {is : List Nat} {s : State} (rest : List Input) (hb : s.busy = false)
    (hlt : ∀ i ∈ is, i < s.par.opwWords) (hle : s.par.opwWords ≤ 256)
    (hin : s.inputs = wordWrites s.par k n is ++ rest) :
    runSteps is.length s = .next (loadWords k n is { s with inputs := rest }) := by
  induction is generalizing s with
  | nil =>
    cases hin
    exact runSteps_zero s
  | cons i is ih =>
    obtain ⟨hi, his⟩ := List.forall_mem_cons.1 hlt
    rw [List.length_cons, runSteps_succ _ (step_write_vword_idle hin (by omega) hi hb)]
    exact ih hb his hle rfl

end LoadWords

/-- Every word of `n` into V[k] leaves `n` there, since both have no bit past OPW. -/
theorem vreg_loadWords_all {s : State} {k : Reg} {n : Nat} (hv : s.vreg k < 2 ^ s.par.opw)
    (hn : n < 2 ^ s.par.opw) : (loadWords k n (List.range s.par.opwWords) s).vreg k = n := by
  apply Nat.eq_of_testBit_eq
  intro b
  rw [vreg_loadWords_testBit]
  split
  · rfl
  · rename_i hword
    rw [List.mem_range] at hword
    have hpow : 2 ^ s.par.opw ≤ 2 ^ b := Nat.pow_le_pow_right (by decide) (by unfold Params.opw; omega)
    rw [Nat.testBit_eq_false_of_lt (hv.trans_le hpow), Nat.testBit_eq_false_of_lt (hn.trans_le hpow)]

end Sys2Proof.Machine

open Sys2Proof Sys2Proof.Machine

/-- Settles O26: a partial access is no whole word at its offset. -/
theorem narrowAccessesAreInert : Obligations.NarrowAccessesAreInert := by
  intro s acc rest hp hlow hhigh hnarrow
  have hwhole := wholeWord_eq_false hp hlow hnarrow
  refine ⟨fun w hin => ?_, fun hin => ?_⟩
  · rw [step_write_access hin hlow hhigh, busWrite_narrow hwhole]
  · rw [step_read_access hin hlow hhigh, busRead_narrow hwhole]

/-- Settles O24: a read sets the read data, and takes a free word only at a register that is not fully written. -/
theorem readsChangeOnlyReadData : Obligations.ReadsChangeOnlyReadData := by
  intro s acc rest hin hlow hhigh
  rw [step_read_access hin hlow hhigh]
  obtain ⟨x, e⟩ | ⟨k, i, -, hk, -, e⟩ :=
    busRead_cases (acc.addr - s.par.base) acc.lanes { s with inputs := rest } <;> rw [e]
  · exact ⟨x, s.draws, rfl, fun _ => rfl⟩
  · exact ⟨_, _, rfl, fun hall => absurd ((hall k).symm.trans hk) (by decide)⟩

/-- Settles O21: BUSY drops writes to CMD and to V words alone; EVENTS and IRQEN do not look at it. -/
theorem writesWhileBusyAreDropped : Obligations.WritesWhileBusyAreDropped := by
  intro s w rest ⟨_, hle, _⟩ hb
  refine ⟨fun hin => ?_, fun k i hn hin => ?_, fun k i hn hi hin => ?_, fun hin => ?_, fun hin => ?_⟩
  · rw [step_write hin (by decide) (by decide), busWriteWord_cmd, busy_inputs, if_pos hb, overrun]
  · exact step_write_vword_busy hin (by omega) hn hb
  · exact step_write_vword_reserved hin hi hn
  · rw [step_write hin (by decide) (by decide), busWriteWord_events, Events.w1c]
  · rw [step_write hin (by decide) (by decide), busWriteWord_irqen, irqenOf]

/-- Settles O22: the windows read 0, and no control register's read looks at BUSY but through STATUS. -/
theorem readsWhileBusy : Obligations.ReadsWhileBusy := fun _ _ _ hb =>
  ⟨fun _ _ hi hin => step_read_vword_busy hin hi hb, step_read_id, step_read_param, step_read_status,
    step_read_events, step_read_irqen⟩

/-- Settles O23: one lemma for each row of the register map. -/
theorem readsReturnTheMap : Obligations.ReadsReturnTheMap := by
  intro s off rest ⟨_, hle, _⟩ hin
  refine ⟨?_, ?_, ?_, ?_, ?_, ?_, ?_⟩
  · rintro rfl; exact step_read_id hin
  · rintro rfl; exact step_read_param hin
  · rintro rfl; exact step_read_cmd hin
  · rintro rfl; exact step_read_status hin
  · rintro rfl; exact step_read_events hin
  · rintro rfl; exact step_read_irqen hin
  · rintro k i rfl hn
    have hi : i < 256 := by omega
    refine ⟨step_read_vword_busy hin hi, fun hb hk =>
      ⟨_, step_read_vword_known hin hi hn hb hk, fun b hlt => ?_⟩⟩
    rw [wordOf_getLsbD, decide_eq_true hlt, Bool.true_and]

/-- Settles O31: the write is `setVWord`, and what it writes is word i of the new number. -/
theorem vWordWriteChangesThirtyTwoBits : Obligations.VWordWriteChangesThirtyTwoBits := by
  intro s k i w rest ⟨_, hle, _⟩ hq hn hin
  have hi : i < 256 := by omega
  have hb := (State.quiescent_iff s).1 hq
  refine ⟨_, step_write_vword_idle hin hi hn hb, rfl, fun b => ?_, fun j hj => ?_, fun j h => ?_, fun b hlane => ?_,
    fun rest' hrest hk => ?_⟩
  · rw [vreg_setVWord, if_pos rfl, setWord_testBit, vreg_inputs]
  · rw [vreg_setVWord, if_neg hj, vreg_inputs]
  · rw [wordWritten_setVWord _ _ _ _ _ _ hi, wordWritten_inputs]
  · rw [← byteLane_wordOf _ _ hlane, wordOf_vreg_setVWord]
  · rw [step_read_vword_known (s := ({ s with inputs := rest } : State).setVWord k i w) hrest hi hn hb hk,
      wordOf_vreg_setVWord]

/-- Settles O32: the words written are all those of V[k], and each word's write keeps the rest. -/
theorem loadingEveryWordLoadsRegister : Obligations.LoadingEveryWordLoadsRegister := by
  intro s k n rest ⟨_, hle, _⟩ hq hv hn hin
  have hlt : ∀ i ∈ List.range s.par.opwWords, i < s.par.opwWords := fun i => List.mem_range.1
  have hrun := runSteps_wordWrites k n rest ((State.quiescent_iff s).1 hq) hlt hle (loadWrites_eq s.par k n ▸ hin)
  rw [List.length_range] at hrun
  have hwritten := wordWritten_loadWords k n (fun i h => (hlt i h).trans_le hle) { s with inputs := rest }
  refine ⟨_, hrun, vreg_loadWords_all (s := { s with inputs := rest }) hv hn, ?_, loadWords_inputs ..,
    fun j hj => ⟨vreg_loadWords_of_ne k n _ _ hj, ?_⟩, loadWords_job .., loadWords_status ..,
    loadWords_events .., loadWords_irqen .., loadWords_par ..⟩
  · rw [State.fullyWritten_iff, loadWords_par]
    intro i hi
    simp [hwritten, List.mem_range.2 hi]
  · rw [Bool.eq_iff_iff, State.fullyWritten_iff, State.fullyWritten_iff, loadWords_par]
    simp [hwritten, hj]

end

section
/-! SUPPORT. The command word's encoding (30_encoding.md R90 to R103): a word whose unused fields are 0 is its command's
word, decoding inverts encoding on exactly the well-formed commands, and a row of the opcode map selects exactly the
words of its commands. -/

namespace Sys2Proof

/-! A word from its fields, one lemma a command (30_encoding.md R92 to R96). -/

theorem encode_mrround_fields {w : Word} (ho : fieldOpc w = 1) (hc : fieldRc w = 0) (hi : fieldImm w = 0) :
    encode (.mrround (fieldRd w) (fieldRa w) (fieldRb w)) = w := by
  have h := assembleFields_fields w
  rwa [ho, hc, hi] at h

theorem encode_primetest_fields {w : Word} (ho : fieldOpc w = 2) (hb : fieldRb w = 0) (hc : fieldRc w = 0) :
    encode (.primetest (fieldRd w) (fieldRa w) (fieldImm w)) = w := by
  have h := assembleFields_fields w
  rwa [ho, hb, hc] at h

theorem encode_modpow_fields {w : Word} (ho : fieldOpc w = 3) (hi : fieldImm w = 0) :
    encode (.modpow (fieldRd w) (fieldRa w) (fieldRb w) (fieldRc w)) = w := by
  have h := assembleFields_fields w
  rwa [ho, hi] at h

theorem encode_modmul_fields {w : Word} (ho : fieldOpc w = 4) (hi : fieldImm w = 0) :
    encode (.modmul (fieldRd w) (fieldRa w) (fieldRb w) (fieldRc w)) = w := by
  have h := assembleFields_fields w
  rwa [ho, hi] at h

theorem encode_egcd_fields {w : Word} (ho : fieldOpc w = 5) (hi : fieldImmHigh w = 0) :
    encode (.egcd (fieldRd w) (fieldRa w) (fieldRb w) (fieldRc w) (fieldRy w)) = w := by
  have h := assembleFields_fields w
  rwa [ho, fieldImm_of_fieldImmHigh w hi] at h

theorem encode_modinv_fields {w : Word} (ho : fieldOpc w = 6) (hb : fieldRb w = 0) (hi : fieldImm w = 0) :
    encode (.modinv (fieldRd w) (fieldRa w) (fieldRc w)) = w := by
  have h := assembleFields_fields w
  rwa [ho, hb, hi] at h

theorem wf_and_encode_of_decode {w : Word} {i : Instr} (h : decode w = .legal i) : i.wf = true ∧ encode i = w := by
  unfold decode at h
  split at h <;> rename_i hopc
  case h_1 =>
    obtain ⟨hz, rfl⟩ := (whenZero_legal _ _ _).1 h
    simp only [Bool.and_eq_true, beq_iff_eq] at hz
    exact ⟨rfl, encode_mrround_fields (fieldOpc_of_toNat hopc) hz.1 hz.2⟩
  case h_2 =>
    obtain ⟨hz, rfl⟩ := (whenZero_legal _ _ _).1 h
    simp only [Bool.and_eq_true, beq_iff_eq] at hz
    exact ⟨rfl, encode_primetest_fields (fieldOpc_of_toNat hopc) hz.1 hz.2⟩
  case h_3 =>
    obtain ⟨hz, rfl⟩ := (whenZero_legal _ _ _).1 h
    exact ⟨rfl, encode_modpow_fields (fieldOpc_of_toNat hopc) (beq_iff_eq.1 hz)⟩
  case h_4 =>
    obtain ⟨hz, rfl⟩ := (whenZero_legal _ _ _).1 h
    exact ⟨rfl, encode_modmul_fields (fieldOpc_of_toNat hopc) (beq_iff_eq.1 hz)⟩
  case h_5 =>
    split at h
    next hhigh =>
      split at h
      next hdistinct =>
        cases h
        exact ⟨hdistinct, encode_egcd_fields (fieldOpc_of_toNat hopc) (beq_iff_eq.1 hhigh)⟩
      next => cases h
    next => cases h
  case h_6 =>
    obtain ⟨hz, rfl⟩ := (whenZero_legal _ _ _).1 h
    simp only [Bool.and_eq_true, beq_iff_eq] at hz
    exact ⟨rfl, encode_modinv_fields (fieldOpc_of_toNat hopc) hz.1 hz.2⟩
  case h_7 => cases h

theorem decode_eq_legal_iff (w : Word) (i : Instr) : decode w = .legal i ↔ i.wf = true ∧ encode i = w := by
  refine ⟨wf_and_encode_of_decode, ?_⟩
  rintro ⟨hw, rfl⟩
  exact decode_encode i hw

/-! Masks, field by field (30_encoding.md R99). -/

theorem word_eq_iff_fields (v w : Word) :
    v = w ↔ fieldOpc v = fieldOpc w ∧ fieldRd v = fieldRd w ∧ fieldRa v = fieldRa w ∧ fieldRb v = fieldRb w ∧
      fieldRc v = fieldRc w ∧ fieldImm v = fieldImm w := by
  refine ⟨fun h => by simp [h], ?_⟩
  rintro ⟨ho, hd, ha, hb, hc, hi⟩
  rw [← assembleFields_fields v, ho, hd, ha, hb, hc, hi, assembleFields_fields]

theorem and_eq_iff_fields (w m p : Word) :
    w &&& m = p ↔ fieldOpc w &&& fieldOpc m = fieldOpc p ∧ fieldRd w &&& fieldRd m = fieldRd p ∧
      fieldRa w &&& fieldRa m = fieldRa p ∧ fieldRb w &&& fieldRb m = fieldRb p ∧
      fieldRc w &&& fieldRc m = fieldRc p ∧ fieldImm w &&& fieldImm m = fieldImm p := by
  rw [word_eq_iff_fields]
  simp only [fieldOpc, fieldRd, fieldRa, fieldRb, fieldRc, fieldImm, BitVec.extractLsb'_and, BitVec.toFin_and]

theorem reg_and_full (r : Reg) : r &&& 15 = r := by revert r; decide

theorem reg_and_zero (r : Reg) : r &&& 0 = 0 := by revert r; decide

theorem fieldImm_and_high_eq_zero (w : Word) : fieldImm w &&& 0xF0 = 0#8 ↔ fieldImmHigh w = 0 := by
  have hbyte : ∀ x : BitVec 8, x &&& 0xF0 = 0#8 ↔ x.extractLsb' 4 4 = 0 := by decide
  have hhigh : fieldImmHigh w = (fieldImm w).extractLsb' 4 4 := by
    ext b hb
    simp only [fieldImmHigh, fieldImm, BitVec.getElem_extractLsb', BitVec.getLsbD_extractLsb']
    rw [decide_eq_true (by omega), Bool.true_and, ← Nat.add_assoc]
  rw [hhigh, hbyte]

/-- Every row of R99 masks the whole of OPC, nothing of RD and RA, and some bits of RB, RC and IMM8, which must be 0. -/
theorem selects_iff_fields {r : OpcodeRow} (opc mi : BitVec 8) (mc mb : Reg)
    (hmask : r.mask = assembleFields mi mc mb 0 0 (.allOnes 8))
    (hpattern : r.pattern = assembleFields 0#8 0 0 0 0 opc) (w : Word) :
    r.selects w = true ↔
      fieldOpc w = opc ∧ fieldRb w &&& mb = 0 ∧ fieldRc w &&& mc = 0 ∧ fieldImm w &&& mi = 0#8 := by
  rw [OpcodeRow.selects, beq_iff_eq, hmask, hpattern, and_eq_iff_fields]
  simp only [fieldOpc_assemble, fieldRd_assemble, fieldRa_assemble, fieldRb_assemble, fieldRc_assemble,
    fieldImm_assemble, reg_and_zero, BitVec.and_allOnes, true_and]

section Rows

/-! The words of each command, well formed or not, are those its row selects. -/

variable (w : Word)

theorem selects_mrround_iff :
    OpcodeRow.selects ⟨"MRROUND", 0x00000001, 0xFFF000FF⟩ w = true ↔
      ∃ i : Instr, i.mnemonic = "MRROUND" ∧ encode i = w := by
  rw [selects_iff_fields 1 (.allOnes 8) 15 0 rfl rfl]
  simp only [reg_and_zero, reg_and_full, BitVec.and_allOnes, true_and]
  constructor
  · rintro ⟨ho, hc, hi⟩
    exact ⟨_, rfl, encode_mrround_fields ho hc hi⟩
  · rintro ⟨i, hm, rfl⟩
    cases i with
    | mrround => simp [encode, fieldOpc_assemble, fieldRc_assemble, fieldImm_assemble]
    | _ => simp [Instr.mnemonic] at hm

theorem selects_primetest_iff :
    OpcodeRow.selects ⟨"PRIMETEST", 0x00000002, 0x00FF00FF⟩ w = true ↔
      ∃ i : Instr, i.mnemonic = "PRIMETEST" ∧ encode i = w := by
  rw [selects_iff_fields 2 0#8 15 15 rfl rfl]
  simp only [reg_and_full, BitVec.and_zero, and_true]
  constructor
  · rintro ⟨ho, hb, hc⟩
    exact ⟨_, rfl, encode_primetest_fields ho hb hc⟩
  · rintro ⟨i, hm, rfl⟩
    cases i with
    | primetest => simp [encode, fieldOpc_assemble, fieldRb_assemble, fieldRc_assemble]
    | _ => simp [Instr.mnemonic] at hm

theorem selects_modpow_iff :
    OpcodeRow.selects ⟨"MODPOW", 0x00000003, 0xFF0000FF⟩ w = true ↔
      ∃ i : Instr, i.mnemonic = "MODPOW" ∧ encode i = w := by
  rw [selects_iff_fields 3 (.allOnes 8) 0 0 rfl rfl]
  simp only [reg_and_zero, BitVec.and_allOnes, true_and]
  constructor
  · rintro ⟨ho, hi⟩
    exact ⟨_, rfl, encode_modpow_fields ho hi⟩
  · rintro ⟨i, hm, rfl⟩
    cases i with
    | modpow => simp [encode, fieldOpc_assemble, fieldImm_assemble]
    | _ => simp [Instr.mnemonic] at hm

theorem selects_modmul_iff :
    OpcodeRow.selects ⟨"MODMUL", 0x00000004, 0xFF0000FF⟩ w = true ↔
      ∃ i : Instr, i.mnemonic = "MODMUL" ∧ encode i = w := by
  rw [selects_iff_fields 4 (.allOnes 8) 0 0 rfl rfl]
  simp only [reg_and_zero, BitVec.and_allOnes, true_and]
  constructor
  · rintro ⟨ho, hi⟩
    exact ⟨_, rfl, encode_modmul_fields ho hi⟩
  · rintro ⟨i, hm, rfl⟩
    cases i with
    | modmul => simp [encode, fieldOpc_assemble, fieldImm_assemble]
    | _ => simp [Instr.mnemonic] at hm

theorem selects_egcd_iff :
    OpcodeRow.selects ⟨"EGCD", 0x00000005, 0xF00000FF⟩ w = true ↔
      ∃ i : Instr, i.mnemonic = "EGCD" ∧ encode i = w := by
  rw [selects_iff_fields 5 0xF0 0 0 rfl rfl]
  simp only [reg_and_zero, fieldImm_and_high_eq_zero, true_and]
  constructor
  · rintro ⟨ho, hi⟩
    exact ⟨_, rfl, encode_egcd_fields ho hi⟩
  · rintro ⟨i, hm, rfl⟩
    cases i with
    | egcd => simp [encode, fieldOpc_assemble, fieldImmHigh_assemble]
    | _ => simp [Instr.mnemonic] at hm

theorem selects_modinv_iff :
    OpcodeRow.selects ⟨"MODINV", 0x00000006, 0xFF0F00FF⟩ w = true ↔
      ∃ i : Instr, i.mnemonic = "MODINV" ∧ encode i = w := by
  rw [selects_iff_fields 6 (.allOnes 8) 0 15 rfl rfl]
  simp only [reg_and_zero, reg_and_full, BitVec.and_allOnes, true_and]
  constructor
  · rintro ⟨ho, hb, hi⟩
    exact ⟨_, rfl, encode_modinv_fields ho hb hi⟩
  · rintro ⟨i, hm, rfl⟩
    cases i with
    | modinv => simp [encode, fieldOpc_assemble, fieldRb_assemble, fieldImm_assemble]
    | _ => simp [Instr.mnemonic] at hm

end Rows

theorem selects_iff_encode {r : OpcodeRow} (hr : r ∈ opcodeMap) (w : Word) :
    r.selects w = true ↔ ∃ i : Instr, i.mnemonic = r.mnemonic ∧ encode i = w := by
  simp only [opcodeMap, List.mem_cons, List.not_mem_nil, or_false] at hr
  obtain rfl | rfl | rfl | rfl | rfl | rfl := hr
  · exact selects_mrround_iff w
  · exact selects_primetest_iff w
  · exact selects_modpow_iff w
  · exact selects_modmul_iff w
  · exact selects_egcd_iff w
  · exact selects_modinv_iff w

/-! EGCD's destinations, in the bits of its word (30_encoding.md R95, R98). -/

theorem distinctDests_iff_fields (w : Word) :
    distinctDests (fieldRd w) (fieldRc w) (fieldRy w) = true ↔
      w.extractLsb' 8 4 ≠ w.extractLsb' 20 4 ∧ w.extractLsb' 8 4 ≠ w.extractLsb' 24 4 ∧
        w.extractLsb' 20 4 ≠ w.extractLsb' 24 4 := by
  have hinj (x y : BitVec 4) : (x.toFin : Reg) = y.toFin ↔ x = y := BitVec.toFin_inj
  simp only [distinctDests, fieldRd, fieldRc, fieldRy, Bool.and_eq_true, bne_iff_ne, ne_eq, hinj, and_assoc]

theorem wf_iff_distinct_fields (i : Instr) :
    i.wf = true ↔ (i.mnemonic = "EGCD" →
      (encode i).extractLsb' 8 4 ≠ (encode i).extractLsb' 20 4 ∧
        (encode i).extractLsb' 8 4 ≠ (encode i).extractLsb' 24 4 ∧
        (encode i).extractLsb' 20 4 ≠ (encode i).extractLsb' 24 4) := by
  rw [← distinctDests_iff_fields]
  cases i with
  | egcd => simp [Instr.wf, Instr.mnemonic, encode, fieldRd_assemble, fieldRc_assemble, fieldRy_assemble]
  | _ => simp [Instr.wf, Instr.mnemonic]

/-! The reserved opcodes (30_encoding.md R100). -/

theorem decode_reserved {w : Word} (h : w.toNat % 256 = 0 ∨ 7 ≤ w.toNat % 256) :
    decode w = .illegal .reservedOpcode := by
  have hopc : (fieldOpc w).toNat = w.toNat % 256 := by simp [fieldOpc]
  rw [← hopc] at h
  unfold decode
  split
  case h_7 => rfl
  all_goals omega

end Sys2Proof

open Sys2Proof

/-- Settles O1: each field of the assembled word reads back as the operand put there, and EGCD's destinations differ. -/
theorem encodeThenDecode : Obligations.EncodeThenDecode := decode_encode

/-- Settles O2: the decoder takes a command only where the fields it does not read are 0. -/
theorem decodedWordsAreEncodings : Obligations.DecodedWordsAreEncodings := fun _ _ => wf_and_encode_of_decode

/-- Settles O3: the row selects the words of its commands, and of these the decoder takes the well-formed. -/
theorem decoderFollowsOpcodeMap : Obligations.DecoderFollowsOpcodeMap := by
  intro w r hr
  simp only [decode_eq_legal_iff, selects_iff_encode hr]
  constructor
  · rintro ⟨i, ⟨hw, rfl⟩, hm⟩
    exact ⟨⟨i, hm, rfl⟩, fun hegcd => (wf_iff_distinct_fields i).1 hw (hm.trans hegcd)⟩
  · rintro ⟨⟨i, hm, rfl⟩, hdistinct⟩
    exact ⟨i, ⟨(wf_iff_distinct_fields i).2 fun hegcd => hdistinct (hm.symm.trans hegcd), rfl⟩, hm⟩

/-- Settles O4: no case of the decoder but the last has such an OPC. -/
theorem reservedOpcodesAreIllegal : Obligations.ReservedOpcodesAreIllegal := fun _ => decode_reserved

/-- Settles O5: the decoder run on nine words. -/
theorem sampleCommandWords : Obligations.SampleCommandWords := by
  unfold Obligations.SampleCommandWords
  decide

end

section
/-! SUPPORT. The rounds as arithmetic (40_primality.md R120 to R123, R130, R131): a round by the powers it sees, and what
a prime makes of a round and of PRIMETEST's program. -/

namespace Sys2Proof.Machine

/-! A round by the powers it sees (40_primality.md R120, R122). -/

/-- The squarings pass exactly when one of them gives n - 1: after a 1, where they stop, there are only further 1s. -/
theorem mrSquarings_iff {n : Nat} (hn : 2 < n) (k x : Nat) :
    mrSquarings k x n = true ↔ ∃ r, r < k ∧ x ^ 2 ^ (r + 1) % n = n - 1 := by
  induction k generalizing x with
  | zero => simp [mrSquarings]
  | succ k ih =>
    have hlater (r : Nat) : x ^ 2 ^ (r + 1 + 1) % n = (x * x % n) ^ 2 ^ (r + 1) % n := by
      rw [← Nat.pow_mod, ← pow_two, ← pow_mul, ← pow_succ']
    have hfirst : x ^ 2 ^ (0 + 1) % n = x * x % n := by rw [zero_add, pow_one, pow_two]
    rw [Nat.exists_lt_succ_left, hfirst]
    simp only [hlater, mrSquarings]
    split
    · exact iff_of_true rfl (.inl ‹_›)
    · rename_i hne
      split
      · rename_i hone
        have hones : 1 ≠ n - 1 := by omega
        simp [hone, hones, Nat.mod_eq_of_lt (show 1 < n by omega)]
      · rw [ih, or_iff_right hne]

theorem mrRound_iff {n : Nat} (hodd : n % 2 = 1) (hn : 2 < n) (a : Nat) :
    mrRound n a = true ↔
      a ^ ((n - 1) / 2 ^ v2 (n - 1)) % n = 1 ∨
        ∃ r, r < v2 (n - 1) ∧ a ^ (2 ^ r * ((n - 1) / 2 ^ v2 (n - 1))) % n = n - 1 := by
  obtain ⟨s, hs⟩ := Nat.exists_eq_add_of_le' (one_le_v2_of_even (m := n - 1) (by omega) (by omega))
  simp only [mrRound, modpow_eq_pow_mod a _ (show 0 < n by omega), hs, Nat.add_sub_cancel]
  generalize (n - 1) / 2 ^ (s + 1) = d
  have hpower (r : Nat) : a ^ (2 ^ r * d) % n = (a ^ d % n) ^ 2 ^ r % n := by
    rw [← Nat.pow_mod, ← pow_mul, Nat.mul_comm]
  simp only [hpower, Nat.exists_lt_succ_left (n := s), pow_zero, pow_one, Nat.mod_mod, ← or_assoc]
  split
  · exact iff_of_true rfl (.inl ‹_›)
  · rw [mrSquarings_iff hn, or_iff_right ‹_›]

/-! The verdicts that need no witness (40_primality.md R131). -/

theorem primeTrivial_of_le_one {n : Nat} (h : n ≤ 1) : primeTrivial n = some false := if_pos h

theorem primeTrivial_two_or_three {n : Nat} (h : n = 2 ∨ n = 3) : primeTrivial n = some true := by
  rw [primeTrivial, if_neg (by omega), if_pos h]

theorem primeTrivial_even {n : Nat} (h4 : 4 ≤ n) (heven : n % 2 = 0) : primeTrivial n = some false := by
  rw [primeTrivial, if_neg (by omega), if_neg (by omega), if_neg (by omega)]

theorem primeTrivial_odd {n : Nat} (h5 : 5 ≤ n) (hodd : n % 2 = 1) : primeTrivial n = none := by
  rw [primeTrivial, if_neg (by omega), if_neg (by omega), if_pos hodd]

theorem needsWitness_iff (n : Nat) (k : BitVec 8) :
    needsWitness n k = true ↔ primeTrivial n = none ∧ k ≠ 0 := by
  simp [needsWitness]

/-! PRIMETEST's program (40_primality.md R130, R134, R136). -/

theorem drawsInRange_cons (n w : Nat) (ws : List Nat) :
    drawsInRange n (w :: ws) = true ↔ (2 ≤ w ∧ w ≤ n - 2) ∧ drawsInRange n ws = true := by
  simp [drawsInRange]

theorem primetestProgram_of_untrivial {n : Nat} (h : primeTrivial n = none) (k : Nat) (ws : List Nat) :
    primetestProgram n k ws = primetestLoop n k ws := by
  rw [primetestProgram, h]

theorem primetestLoop_cons_passes {n w : Nat} (hm : mrRound n w = true) (r : Nat) (ws : List Nat) :
    primetestLoop n (r + 1) (w :: ws) = primetestLoop n r ws := by
  rw [primetestLoop, if_pos hm]

theorem primetestLoop_cons_fails {n w : Nat} (hm : mrRound n w = false) (r : Nat) (ws : List Nat) :
    primetestLoop n (r + 1) (w :: ws) = some false := by
  rw [primetestLoop, if_neg (by rw [hm]; exact Bool.false_ne_true)]

theorem primetestLoop_of_prime {n : Nat} (hp : n.Prime) (h5 : 5 ≤ n) (r : Nat) (ws : List Nat)
    (hws : drawsInRange n ws = true) : primetestLoop n r ws ≠ some false := by
  induction r, ws using primetestLoop.induct n with
  | case1 ws => simp [primetestLoop]
  | case2 r => simp [primetestLoop]
  | case3 r w ws hm ih =>
    rw [primetestLoop_cons_passes hm]
    exact ih ((drawsInRange_cons n w ws).1 hws).2
  | case4 r w ws hm =>
    obtain ⟨⟨h2, hle⟩, -⟩ := (drawsInRange_cons n w ws).1 hws
    exact absurd (mrRound_of_prime hp h5 h2 hle) hm

theorem primetestProgram_of_prime {n : Nat} (hp : n.Prime) (k : Nat) (ws : List Nat)
    (hws : drawsInRange n ws = true) : primetestProgram n k ws ≠ some false := by
  by_cases hsmall : n = 2 ∨ n = 3
  · simp [primetestProgram, primeTrivial_two_or_three hsmall]
  · obtain ⟨h2, h3⟩ := not_or.1 hsmall
    have h5 : 5 ≤ n := hp.five_le_of_ne_two_of_ne_three h2 h3
    rw [primetestProgram_of_untrivial (primeTrivial_odd h5 (hp.eq_two_or_odd.resolve_left h2))]
    exact primetestLoop_of_prime hp h5 k ws hws

end Sys2Proof.Machine

open Sys2Proof Sys2Proof.Machine

/-- Settles O51: the early exit stops at a 1, which no squaring takes to n - 1. -/
theorem roundPassesExactlyBySightings : Obligations.RoundPassesExactlyBySightings :=
  fun _ a hodd h5 _ _ => mrRound_iff hodd (by omega) a

/-- Settles O52: a prime passes every round, and 2047 = 23 · 89 passes the round with 2. -/
theorem verdictZeroProvesComposite : Obligations.VerdictZeroProvesComposite := by
  refine ⟨fun n a _ h5 h2 hle hfail hp => ?_, fun n a hp => mrRound_of_prime hp, ⟨by decide, by norm_num⟩,
    fun n k ws hws hzero hp => primetestProgram_of_prime hp k ws hws hzero⟩
  rw [mrRound_of_prime hp h5 h2 hle] at hfail
  cases hfail

end

section
/-! SUPPORT. MRROUND and PRIMETEST on the machine (40_primality.md R121, R130 to R137): what each Engine step of theirs
does, what the wait for a witness holds fixed, and PRIMETEST from its CMD write to its completion. -/

namespace Sys2Proof.Machine

open Sys2Proof

/-! Completions with a verdict (60_exceptions.md R215). -/

theorem completeVerdict_completesOk (rd : Reg) (v : Bool) (s : State) :
    CompletesOk [(rd, v.toNat)] v false false s (completeVerdict rd v s) :=
  completeOk_completesOk _ v false false s (List.nodup_singleton rd)

/-- What a completion leaves as it was names neither the rounds done, nor the request, nor the port. -/
theorem CompletesOk.of_round {writes : List (Reg × Nat)} {r x y q : Bool} {s t : State} {d : BitVec 8} {w : Option Nat}
    (h : CompletesOk writes r x y { s with job.doneRounds := d, job.wreq := q, witness := w } t) :
    CompletesOk writes r x y s t where
  frame :=
    { vreg := h.frame.vreg, wordWritten := h.frame.wordWritten, irqen := h.frame.irqen, ovr := h.frame.ovr
      lastop := h.frame.lastop, par := h.frame.par, rdata := h.frame.rdata, draws := h.frame.draws
      inputs := h.frame.inputs, record := h.frame.record }
  value := h.value
  status := h.status
  quiescent := h.quiescent
  request := h.request
  done := h.done
  port := h.port

/-! MRROUND (40_primality.md R121). -/

theorem exec_mrround_inRange {s : State} (rd ra rb : Reg) (h : mrInRange s.job.a s.job.b = true) :
    exec (.mrround rd ra rb) s = .next (completeVerdict rd (mrRound s.job.a s.job.b) s) := by
  simp only [exec, execMrround, if_pos h]

theorem exec_mrround_outOfRange {s : State} (rd ra rb : Reg) (h : mrInRange s.job.a s.job.b ≠ true) :
    exec (.mrround rd ra rb) s = .next (completeError .mrRange s) := by
  simp only [exec, execMrround, if_neg h]

/-! PRIMETEST's Engine step, case by case (40_primality.md R131 to R137). -/

theorem exec_primetest_trivial {s : State} {v : Bool} (rd ra : Reg) (k : BitVec 8)
    (h : primeTrivial s.job.a = some v) : exec (.primetest rd ra k) s = .next (completeVerdict rd v s) := by
  simp only [exec, execPrimetest, h]

theorem exec_primetest_noRounds {s : State} (rd ra : Reg) (h : primeTrivial s.job.a = none) :
    exec (.primetest rd ra 0) s = .next (completeVerdict rd true s) := by
  simp only [exec, execPrimetest, h, if_pos]

theorem exec_primetest_waits {s : State} {k : BitVec 8} (rd ra : Reg) (h : needsWitness s.job.a k = true)
    (ha : s.answered = none) : exec (.primetest rd ra k) s = .next s := by
  obtain ⟨ht, hk⟩ := (needsWitness_iff _ _).1 h
  simp only [exec, execPrimetest, ht, if_neg hk, ha]

theorem exec_primetest_answered {s : State} {k : BitVec 8} {w : Nat} (rd ra : Reg)
    (h : needsWitness s.job.a k = true) (ha : s.answered = some w) :
    exec (.primetest rd ra k) s = .next (roundStep rd k w s) := by
  obtain ⟨ht, hk⟩ := (needsWitness_iff _ _).1 h
  simp only [exec, execPrimetest, ht, if_neg hk, ha]

/-! The three outcomes of a round step (40_primality.md R133). -/

theorem doneRounds_succ_toNat {d k : BitVec 8} (h : d.toNat < k.toNat) : (d + 1).toNat = d.toNat + 1 := by
  bv_omega

theorem doneRounds_succ_eq_iff {d k : BitVec 8} (h : d.toNat < k.toNat) : d + 1 = k ↔ d.toNat + 1 = k.toNat := by
  rw [← BitVec.toNat_inj, doneRounds_succ_toNat h]

section RoundStep

variable {s : State} {k : BitVec 8} {w : Nat} (rd : Reg)

theorem roundStep_fails (hm : mrRound s.job.a w = false) :
    CompletesOk [(rd, 0)] false false false s (roundStep rd k w s) := by
  rw [roundStep, if_neg (by rw [hm]; exact Bool.false_ne_true)]
  exact completeVerdict_completesOk rd false s

theorem roundStep_last (hm : mrRound s.job.a w = true) (hlast : s.job.doneRounds.toNat + 1 = k.toNat) :
    CompletesOk [(rd, 1)] true false false s (roundStep rd k w s) := by
  rw [roundStep, if_pos hm, if_pos ((doneRounds_succ_eq_iff (by omega)).2 hlast)]
  exact (completeVerdict_completesOk rd true _).of_round

theorem roundStep_next (hm : mrRound s.job.a w = true) (hmore : s.job.doneRounds.toNat + 1 < k.toNat) :
    roundStep rd k w s =
      { s with job.doneRounds := s.job.doneRounds + 1, job.wreq := true, witness := none } := by
  have hne : s.job.doneRounds + 1 ≠ k := fun h => by
    have := (doneRounds_succ_eq_iff (by omega)).1 h
    omega
  rw [roundStep, if_pos hm, if_neg hne]

end RoundStep

/-! The wait for a witness (40_primality.md R137). -/

/-- While a witness is asked for, the record holds a PRIMETEST with the count it was issued with. -/
theorem State.Inv.command_of_wreq {s : State} (h : s.Inv) (hr : s.job.wreq = true) :
    ∃ rd ra, s.job.command? = some (.primetest rd ra s.job.imm) := by
  obtain ⟨hb, hopc, -, -⟩ := h.of_wreq hr
  obtain ⟨hsome, -, -⟩ := h.record hb
  obtain ⟨i, hi⟩ := Option.isSome_iff_exists.1 hsome
  obtain ⟨-, -, -, hprimetest⟩ := opc_of_command hi
  obtain ⟨rd, ra, rfl⟩ := hprimetest hopc
  exact ⟨rd, ra, hi⟩

theorem engineStep_waits {s : State} (h : s.Inv) (hr : s.job.wreq = true) : engineStep s = .next s := by
  obtain ⟨hb, -, hneeds, -⟩ := h.of_wreq hr
  obtain ⟨rd, ra, hc⟩ := h.command_of_wreq hr
  rw [engineStep_run hb hc]
  exact exec_primetest_waits rd ra hneeds (by simp [State.answered, h.port])

theorem busWrite_frame_of_busy (off : Nat) (lanes : BitVec 4) (w : Word) {s : State} (hb : s.busy = true) :
    (busWrite off lanes w s).job = s.job ∧ (busWrite off lanes w s).v = s.v := by
  have hidle : s.busy ≠ false := by simp [hb]
  refine ⟨(busWrite_job off lanes w s).resolve_right fun h => hidle h.1, ?_⟩
  obtain e | ⟨-, e⟩ | ⟨h, -⟩ | ⟨-, -, e⟩ | e | ⟨h, -⟩ := busWrite_cases off lanes w s
  · rw [e]
  · rw [e, overrun_v]
  · exact absurd h hidle
  · rw [e]
  · rw [e]
  · exact absurd h hidle

theorem busRead_frame (off : Nat) (lanes : BitVec 4) (s : State) :
    (busRead off lanes s).job = s.job ∧ (busRead off lanes s).v = s.v := by
  obtain ⟨x, e⟩ | ⟨k, i, -, -, -, e⟩ := busRead_cases off lanes s <;> rw [e]
  · exact ⟨rfl, rfl⟩
  · exact ⟨rfl, rfl⟩

/-- No input but an answer or reset touches the record or a V register during the wait. -/
theorem perform_waits {s t : State} {e : Input} (hinv : s.Inv) (hr : s.job.wreq = true) (ha : ∀ w, e ≠ .answer w)
    (hreset : e ≠ .reset) (h : perform e s = .next t) : t.job = s.job ∧ t.v = s.v := by
  obtain ⟨hb, -⟩ := hinv.of_wreq hr
  cases e with
  | read acc =>
    simp only [perform] at h
    split at h <;> cases h
    exact busRead_frame _ _ s
  | write acc w =>
    simp only [perform] at h
    split at h <;> cases h
    exact busWrite_frame_of_busy _ _ w hb
  | engine =>
    rw [perform, engineStep_waits hinv hr] at h
    cases h
    exact ⟨rfl, rfl⟩
  | answer w => exact absurd rfl (ha w)
  | staleAnswer w =>
    cases h
    exact ⟨rfl, rfl⟩
  | reset => exact absurd rfl hreset

/-! PRIMETEST answer by answer (40_primality.md R130, R133). -/

/-- A PRIMETEST of `k` rounds is in flight, waits for a witness, and has `r` rounds to go. -/
structure AwaitsWitness (rd ra : Reg) (k : BitVec 8) (r : Nat) (u : State) : Prop where
  busy : u.busy = true
  request : u.job.wreq = true
  command : u.job.command? = some (.primetest rd ra k)
  needs : needsWitness u.job.a k = true
  rounds : u.job.doneRounds.toNat + r = k.toNat

/-- `u` after a round that passed and was not the last, with `q` still to come. -/
def State.roundPassed (u : State) (q : List Input) : State :=
  { u with inputs := q, job.doneRounds := u.job.doneRounds + 1, job.wreq := true, witness := none }

/-- From `u` on, with `r` rounds to go, the machine takes exactly the first `j` of the draws `ws` and then has completed
as `t`, with the program's verdict `v`. -/
structure TakesDraws (rd : Reg) (r : Nat) (ws : List Nat) (rest : List Input) (v : Bool) (j : Nat) (u t : State) :
    Prop where
  le_draws : j ≤ ws.length
  le_rounds : j ≤ r
  run : runSteps j u = .next t
  completes : CompletesOk [(rd, v.toNat)] v false false { u with inputs := (ws.drop j).map Input.answer ++ rest } t
  program : primetestLoop u.job.a r (ws.take j) = some v
  pending : ∀ h, h < j → primetestLoop u.job.a r (ws.take h) = none ∧ ∃ u', runSteps h u = .next u' ∧ u'.busy = true

section Rounds

variable {rd ra : Reg} {k : BitVec 8} {r w j : Nat} {ws : List Nat} {rest q : List Input} {v : Bool} {u t : State}

theorem AwaitsWitness.step_eq_roundStep (h : AwaitsWitness rd ra k r u) (h2 : 2 ≤ w) (hle : w ≤ u.job.a - 2)
    (hin : u.inputs = .answer w :: q) :
    step u = .next (roundStep rd k w { u with inputs := q, witness := some w }) := by
  rw [step_answer h.busy h.request h.command h2 hle hin]
  exact exec_primetest_answered (s := { u with inputs := q, witness := some w }) rd ra h.needs
    (answered_of_request (s := { u with inputs := q }) h.request h2 hle)

theorem AwaitsWitness.step_fails (h : AwaitsWitness rd ra k r u) (h2 : 2 ≤ w) (hle : w ≤ u.job.a - 2)
    (hin : u.inputs = .answer w :: q) (hm : mrRound u.job.a w = false) :
    ∃ t, step u = .next t ∧ CompletesOk [(rd, 0)] false false false { u with inputs := q } t :=
  ⟨_, h.step_eq_roundStep h2 hle hin,
    (roundStep_fails (s := { u with inputs := q, witness := some w }) rd hm).of_round (s := { u with inputs := q })⟩

theorem AwaitsWitness.step_last (h : AwaitsWitness rd ra k 1 u) (h2 : 2 ≤ w) (hle : w ≤ u.job.a - 2)
    (hin : u.inputs = .answer w :: q) (hm : mrRound u.job.a w = true) :
    ∃ t, step u = .next t ∧ CompletesOk [(rd, 1)] true false false { u with inputs := q } t :=
  ⟨_, h.step_eq_roundStep h2 hle hin,
    (roundStep_last (s := { u with inputs := q, witness := some w }) rd hm h.rounds).of_round
      (s := { u with inputs := q })⟩

theorem AwaitsWitness.step_passes (h : AwaitsWitness rd ra k (r + 2) u) (h2 : 2 ≤ w) (hle : w ≤ u.job.a - 2)
    (hin : u.inputs = .answer w :: q) (hm : mrRound u.job.a w = true) : step u = .next (u.roundPassed q) := by
  have hrounds := h.rounds
  rw [h.step_eq_roundStep h2 hle hin,
    roundStep_next (s := { u with inputs := q, witness := some w }) rd hm
      (show u.job.doneRounds.toNat + 1 < k.toNat by omega)]
  rfl

theorem AwaitsWitness.roundPassed (h : AwaitsWitness rd ra k (r + 1) u) (q : List Input) :
    AwaitsWitness rd ra k r (u.roundPassed q) where
  busy := h.busy
  request := rfl
  command := h.command
  needs := h.needs
  rounds := by
    have hrounds := h.rounds
    have hsucc := doneRounds_succ_toNat (show u.job.doneRounds.toNat < k.toNat by omega)
    show (u.job.doneRounds + 1).toNat + r = k.toNat
    omega

/-- A step that ends the command takes one draw. -/
theorem takesDraws_one (hb : u.busy = true) (hstep : step u = .next t)
    (hc : CompletesOk [(rd, v.toNat)] v false false { u with inputs := ws.map Input.answer ++ rest } t)
    (hprog : primetestLoop u.job.a (r + 1) [w] = some v) : TakesDraws rd (r + 1) (w :: ws) rest v 1 u t where
  le_draws := Nat.succ_le_succ (Nat.zero_le _)
  le_rounds := Nat.succ_le_succ (Nat.zero_le _)
  run := runSteps_succ 0 hstep
  completes := hc
  program := hprog
  pending := fun h hlt => by
    obtain rfl : h = 0 := by omega
    exact ⟨rfl, u, rfl, hb⟩

/-- A round that passes and is not the last takes one draw before those of the rounds that follow it. -/
theorem TakesDraws.cons (hb : u.busy = true) (hm : mrRound u.job.a w = true)
    (hstep : step u = .next (u.roundPassed (ws.map Input.answer ++ rest)))
    (h : TakesDraws rd r ws rest v j (u.roundPassed (ws.map Input.answer ++ rest)) t) :
    TakesDraws rd (r + 1) (w :: ws) rest v (j + 1) u t where
  le_draws := Nat.succ_le_succ h.le_draws
  le_rounds := Nat.succ_le_succ h.le_rounds
  run := (runSteps_succ j hstep).trans h.run
  completes := h.completes.of_round (s := { u with inputs := (ws.drop j).map Input.answer ++ rest })
  program := (primetestLoop_cons_passes hm r _).trans h.program
  pending := fun i hlt => by
    cases i with
    | zero => exact ⟨rfl, u, rfl, hb⟩
    | succ i =>
      obtain ⟨hnone, u', hrun, hbusy⟩ := h.pending i (by omega)
      exact ⟨(primetestLoop_cons_passes hm r _).trans hnone, u', (runSteps_succ i hstep).trans hrun, hbusy⟩

theorem runSteps_one_add (n : Nat) (h : step u = .next t) : runSteps (1 + n) u = runSteps n t := by
  rw [Nat.add_comm, runSteps_succ n h]

/-- Draw by draw: each either ends the command as it ends the program, or leaves both with one round fewer to go. -/
theorem AwaitsWitness.takesDraws (h : AwaitsWitness rd ra k (r + 1) u) (hws : drawsInRange u.job.a ws = true)
    (hprog : primetestLoop u.job.a (r + 1) ws = some v) (hin : u.inputs = ws.map Input.answer ++ rest) :
    ∃ j t, TakesDraws rd (r + 1) ws rest v j u t := by
  induction ws generalizing r u with
  | nil => cases hprog
  | cons w ws ih =>
    obtain ⟨⟨h2, hle⟩, hws⟩ := (drawsInRange_cons _ w ws).1 hws
    cases hm : mrRound u.job.a w with
    | false =>
      rw [primetestLoop_cons_fails hm] at hprog
      cases hprog
      obtain ⟨t, hstep, hc⟩ := h.step_fails h2 hle hin hm
      exact ⟨1, t, takesDraws_one h.busy hstep hc (primetestLoop_cons_fails hm r [])⟩
    | true =>
      rw [primetestLoop_cons_passes hm] at hprog
      cases r with
      | zero =>
        cases hprog
        obtain ⟨t, hstep, hc⟩ := h.step_last h2 hle hin hm
        exact ⟨1, t, takesDraws_one h.busy hstep hc (primetestLoop_cons_passes hm 0 [])⟩
      | succ r =>
        obtain ⟨j, t, htakes⟩ := ih (h.roundPassed _) hws hprog rfl
        exact ⟨j + 1, t, htakes.cons h.busy hm (h.step_passes h2 hle hin hm)⟩

end Rounds

/-- Acceptance of a PRIMETEST that needs a witness asks for the first, with all its rounds to go (R132). -/
theorem awaitsWitness_acceptLegal {s : State} {rd ra : Reg} {k : BitVec 8} {q : List Input}
    (ha : (acceptLegal (encode (.primetest rd ra k)) { s with inputs := q }).job.a = s.vreg ra)
    (hn : needsWitness (s.vreg ra) k = true) :
    AwaitsWitness rd ra k k.toNat (acceptLegal (encode (.primetest rd ra k)) { s with inputs := q }) where
  busy := rfl
  request := by
    have hopc : fieldOpc (encode (.primetest rd ra k)) = 2 := fieldOpc_assemble ..
    have himm : fieldImm (encode (.primetest rd ra k)) = k := fieldImm_assemble ..
    show (fieldOpc _ == 2 && needsWitness _ (fieldImm _)) = true
    rw [hopc, himm]
    exact (congrArg (needsWitness · k) ha).trans hn
  command := command_acceptedJob _ (decode_encode _ rfl)
  needs := (congrArg (needsWitness · k) ha).trans hn
  rounds := Nat.zero_add _

end Sys2Proof.Machine

open Sys2Proof Sys2Proof.Machine

/-- Settles O34: in range MRROUND is a completion with the round's verdict. -/
theorem mrroundCompletes : Obligations.MrroundCompletes :=
  fun s rd ra rb hodd h5 h2 hle =>
    ⟨_, exec_mrround_inRange rd ra rb ((mrInRange_iff _ _).2 ⟨hodd, h5, h2, hle⟩), completeVerdict_completesOk rd _ s⟩

/-- Settles O35: each of the four conditions shuts out the range. -/
theorem mrroundRangeError : Obligations.MrroundRangeError := by
  intro s rd ra rb hout
  have hrange : mrInRange s.job.a s.job.b ≠ true := fun h => by
    have := (mrInRange_iff _ _).1 h
    omega
  exact ⟨_, exec_mrround_outOfRange rd ra rb hrange, completeError_completesInError .mrRange s⟩

/-- Settles O36: the first three clauses are `primeTrivial`'s verdicts, and in the last there is no round to run. -/
theorem primetestWithoutWitness : Obligations.PrimetestWithoutWitness := by
  intro s rd ra k verdict hcase
  refine ⟨_, ?_, completeVerdict_completesOk rd verdict s⟩
  obtain ⟨h1, rfl⟩ | ⟨h23, rfl⟩ | ⟨h4, heven, rfl⟩ | ⟨h5, hodd, rfl, rfl⟩ := hcase
  · exact exec_primetest_trivial rd ra k (primeTrivial_of_le_one h1)
  · exact exec_primetest_trivial rd ra k (primeTrivial_two_or_three h23)
  · exact exec_primetest_trivial rd ra k (primeTrivial_even h4 heven)
  · exact exec_primetest_noRounds rd ra (primeTrivial_odd h5 hodd)

/-- Settles O37: the answer is in range, so the Engine's turn is the round step, and each outcome has its lemma. -/
theorem primetestRoundStep : Obligations.PrimetestRoundStep := by
  intro s rd ra k w hodd h5 hr hlt hw h2 hle
  have hk : k ≠ 0 := fun h => by simp [h] at hlt
  have hneeds : needsWitness s.job.a k = true := (needsWitness_iff _ _).2 ⟨primeTrivial_odd h5 hodd, hk⟩
  have ha : s.answered = some w := by simp [State.answered, hr, hw, h2, hle]
  refine ⟨_, exec_primetest_answered rd ra hneeds ha, roundStep_fails rd, roundStep_last rd, fun hm hmore => ?_⟩
  rw [roundStep_next rd hm hmore]
  exact ⟨by simp only [hr], doneRounds_succ_toNat hlt⟩

/-- Settles O38: the request keeps the command BUSY, so no access reaches S or a register, and the port is empty. -/
theorem primetestWaitsForAnswer : Obligations.PrimetestWaitsForAnswer := by
  intro s hinv hr
  refine ⟨fun hin => (step_nil hin).trans (engineStep_waits hinv hr), fun e rest hin ha hreset t hstep => ?_⟩
  rw [step_cons hin] at hstep
  obtain ⟨hjob, hv⟩ := perform_waits (hinv.inputs rest) hr ha hreset hstep
  obtain ⟨hb, -⟩ := hinv.of_wreq hr
  exact ⟨hjob, (congrArg Job.valid hjob).trans hb, hv⟩

/-- Settles O39: the CMD write leaves PRIMETEST waiting with its whole program to run, and each answer is one draw. -/
theorem primetestRunsItsProgram : Obligations.PrimetestRunsItsProgram := by
  intro s rd ra k ws rest verdict hready hn hws hprog hin
  obtain ⟨hidle, hwf, hsrc⟩ := (State.ready_iff _ s).1 hready
  have ha := issued_a hsrc (ws.map Input.answer ++ rest) (k := ra) (by simp [Instr.sources]) (fieldRa_assemble ..)
  obtain ⟨htrivial, hk⟩ := (needsWitness_iff _ _).1 hn
  obtain ⟨r, hr⟩ := Nat.exists_eq_add_of_le' (show 1 ≤ k.toNat by bv_omega)
  have hwaits := awaitsWitness_acceptLegal (rd := rd) ha hn
  rw [hr] at hwaits
  simp only [primetestProgram_of_untrivial htrivial, hr] at hprog ⊢
  simp only [← ha] at hws hprog ⊢
  obtain ⟨j, t, htakes⟩ := hwaits.takesDraws hws hprog rfl
  have hissue (h : Nat) := runSteps_one_add h (step_issue hidle hwf hin)
  have hc := htakes.completes
  obtain ⟨hvalue, -⟩ := hc.value rd verdict.toNat List.mem_cons_self
  refine ⟨j, t, htakes.le_draws, htakes.le_rounds, (hissue j).trans htakes.run, hc.quiescent, hvalue, ?_, ?_, hc.done,
    fun r hne => hc.frame.vreg r (by simpa using hne), hc.frame.inputs, htakes.program, fun h hlt => ?_⟩
  · rw [hc.status]
  · rw [hc.status]
  · obtain ⟨hnone, u, hrun, hbusy⟩ := htakes.pending h hlt
    exact ⟨hnone, u, (hissue h).trans hrun, hbusy⟩

end

section
/-! SUPPORT. MODPOW, MODMUL and MODINV on the machine (41_modexp.md R151, R160; 42_gcd_inverse.md R190): what the Engine
step of each does, by whether the modulus is 0. -/

namespace Sys2Proof.Machine

open Sys2Proof

/-- A completion with a residue is a completion without error (60_exceptions.md R215). -/
theorem completeResidue_completesOk (rd : Reg) (x : Nat) (s : State) :
    CompletesOk [(rd, x)] false false false s (completeResidue rd x s) :=
  completeOk_completesOk _ false false false s (List.nodup_singleton rd)

section Modular

variable {s : State} (rd ra rb rc : Reg)

/-! A modulus that is not 0. -/

theorem exec_modpow_of_modulus_ne_zero (hc : s.job.c ≠ 0) :
    exec (.modpow rd ra rb rc) s = .next (completeResidue rd (s.job.a ^ s.job.b % s.job.c) s) := by
  rw [← modpow_eq_pow_mod _ _ (Nat.pos_of_ne_zero hc)]
  simp only [exec, execModpow, if_neg hc]

theorem exec_modmul_of_modulus_ne_zero (hc : s.job.c ≠ 0) :
    exec (.modmul rd ra rb rc) s = .next (completeResidue rd (s.job.a * s.job.b % s.job.c) s) := by
  simp only [exec, execModmul, if_neg hc]

/-! The modulus 0: no command looks at another operand (60_exceptions.md R218). -/

theorem exec_modpow_of_modulus_zero (hc : s.job.c = 0) :
    exec (.modpow rd ra rb rc) s = .next (completeError .modZero s) := by
  simp only [exec, execModpow, if_pos hc]

theorem exec_modmul_of_modulus_zero (hc : s.job.c = 0) :
    exec (.modmul rd ra rb rc) s = .next (completeError .modZero s) := by
  simp only [exec, execModmul, if_pos hc]

theorem exec_modinv_of_modulus_zero (hc : s.job.c = 0) :
    exec (.modinv rd ra rc) s = .next (completeError .modZero s) := by
  simp only [exec, execModinv, if_pos hc]

end Modular

end Sys2Proof.Machine

open Sys2Proof Sys2Proof.Machine

/-- Settles O40: the loop computes the power, so the residue written is b^e mod m. -/
theorem modpowCompletes : Obligations.ModpowCompletes :=
  fun s rd ra rb rc hc => ⟨_, exec_modpow_of_modulus_ne_zero rd ra rb rc hc, completeResidue_completesOk rd _ s⟩

/-- Settles O41: the residue written is that of the whole product. -/
theorem modmulCompletes : Obligations.ModmulCompletes :=
  fun s rd ra rb rc hc => ⟨_, exec_modmul_of_modulus_ne_zero rd ra rb rc hc, completeResidue_completesOk rd _ s⟩

/-- Settles O42: the three commands test the modulus first. -/
theorem zeroModulusIsModzero : Obligations.ZeroModulusIsModzero := by
  intro s rd ra rb rc hc
  have herror := completeError_completesInError .modZero s
  exact ⟨⟨_, exec_modpow_of_modulus_zero rd ra rb rc hc, herror⟩,
    ⟨_, exec_modmul_of_modulus_zero rd ra rb rc hc, herror⟩,
    ⟨_, exec_modinv_of_modulus_zero rd ra rc hc, herror⟩⟩

/-- Settles O50: the loop keeps r · p^e mod m, from r = 1 and p = b mod m on. -/
theorem modpowIsPower : Obligations.ModpowIsPower :=
  fun b e _ hm => ⟨modpow_eq_pow_mod b e hm, modpow_lt hm⟩

end

section
/-! SUPPORT. EGCD's triple and the inverse (42_gcd_inverse.md R180 to R184, R191 to R194): what `egcd` gives on the
operands that the rule lists, its coefficients where both operands are multiples of one number, and the one number that
`modinv` gives. -/

namespace Sys2Proof.Machine

open Sys2Proof

/-! The triple. -/

/-- Where the first operand divides the second, the recursion ends at its first call. -/
theorem egcd_of_dvd {a b : Nat} (ha : 0 < a) (hdvd : a ∣ b) : egcd a b = ⟨a, 1, 0⟩ := by
  rw [egcd_succ ha, Nat.mod_eq_zero_of_dvd hdvd, egcd_zero]
  simp

/-- A common factor of the operands is a factor of g and leaves the coefficients: no quotient of the recursion sees it. -/
theorem egcd_mul_left {k : Nat} (hk : 0 < k) (a b : Nat) :
    egcd (k * a) (k * b) = ⟨k * (egcd a b).g, (egcd a b).x, (egcd a b).y⟩ := by
  induction a, b using Nat.gcd.induction with
  | H0 b => simp [egcd_zero]
  | H1 a b ha ih =>
    rw [egcd_succ (Nat.mul_pos hk ha), Nat.mul_mod_mul_left, Nat.mul_div_mul_left _ _ hk, ih, egcd_succ ha]

/-- The bounds of R184: those of the operands divided by their gcd, which have the same coefficients. -/
theorem egcd_natAbs_le_div_gcd {a b : Nat} (hg : 0 < Nat.gcd a b) :
    (egcd a b).x.natAbs ≤ max (b / Nat.gcd a b) 1 ∧ (egcd a b).y.natAbs ≤ max (a / Nat.gcd a b) 1 := by
  have hscaled := egcd_mul_left hg (a / Nat.gcd a b) (b / Nat.gcd a b)
  rw [Nat.mul_div_cancel' (Nat.gcd_dvd_left a b), Nat.mul_div_cancel' (Nat.gcd_dvd_right a b)] at hscaled
  rw [hscaled]
  exact egcd_natAbs_le _ _

/-! The inverse. -/

theorem modinv_eq_none_iff (a n : Nat) : modinv a n = none ↔ Nat.gcd a n ≠ 1 := by
  simp [modinv, egcd_g]

theorem modinv_eq_some {a n r : Nat} (hn : 0 < n) (h : modinv a n = some r) : r < n ∧ a * r ≡ 1 [MOD n] := by
  have hg : Nat.gcd a n = 1 := by
    by_contra hg
    exact Option.some_ne_none r (h.symm.trans ((modinv_eq_none_iff a n).2 hg))
  obtain ⟨r', hr', hspec⟩ := modinv_of_coprime hn hg
  obtain rfl : r' = r := Option.some.inj (hr'.symm.trans h)
  exact hspec

/-- Two inverses of `a` are congruent, since each is the other times a · x ≡ 1; so the one in [0, n) is x mod n for every
inverse x (R193). -/
theorem eq_emod_of_mul_modEq_one {a n r : Nat} {x : Int} (hlt : r < n) (hr : a * r ≡ 1 [MOD n])
    (hx : (a : Int) * x ≡ 1 [ZMOD n]) : (r : Int) = x % n := by
  have hr' : (a : Int) * r ≡ 1 [ZMOD n] := by exact_mod_cast hr
  have hmod : (r : Int) ≡ x [ZMOD n] :=
    calc (r : Int) = r * 1 := (mul_one _).symm
      _ ≡ r * (a * x) [ZMOD n] := hx.symm.mul_left _
      _ = a * r * x := by ring
      _ ≡ 1 * x [ZMOD n] := hr'.mul_right _
      _ = x := one_mul x
  rw [← hmod, Int.emod_eq_of_lt (Int.natCast_nonneg r) (by exact_mod_cast hlt)]

/-! MODINV with a modulus that is not 0. -/

theorem exec_modinv_of_inverse {s : State} {r : Nat} (rd ra rc : Reg) (hc : s.job.c ≠ 0)
    (h : modinv s.job.a s.job.c = some r) : exec (.modinv rd ra rc) s = .next (completeResidue rd r s) := by
  simp only [exec, execModinv, if_neg hc, h]

theorem exec_modinv_of_no_inverse {s : State} (rd ra rc : Reg) (hc : s.job.c ≠ 0)
    (h : modinv s.job.a s.job.c = none) : exec (.modinv rd ra rc) s = .next (completeError .invUndef s) := by
  simp only [exec, execModinv, if_neg hc, h]

end Sys2Proof.Machine

open Sys2Proof Sys2Proof.Machine

/-- Settles O43: each destination holds its number, and sign and magnitude give the coefficient back. -/
theorem egcdCompletes : Obligations.EgcdCompletes := by
  intro s rd ra rb rc ry hw
  have hcompletes := exec_egcd_completes hw (s := s) rfl
  obtain ⟨hx, -⟩ := hcompletes.value rc (egcd s.job.a s.job.b).x.natAbs (by simp)
  obtain ⟨hy, -⟩ := hcompletes.value ry (egcd s.job.a s.job.b).y.natAbs (by simp)
  refine ⟨_, rfl, hcompletes, ?_, ?_⟩
  · rw [hx, hcompletes.status, signedValue_natAbs]
  · rw [hy, hcompletes.status, signedValue_natAbs]

/-- Settles O44: the residue written is the inverse that `modinv` finds for coprime operands. -/
theorem modinvCompletes : Obligations.ModinvCompletes := by
  intro s rd ra rc hc hg
  obtain ⟨r, hsome, hlt, hmod⟩ := modinv_of_coprime (Nat.pos_of_ne_zero hc) hg
  exact ⟨_, r, exec_modinv_of_inverse rd ra rc hc hsome, completeResidue_completesOk rd r s, hlt, hmod⟩

/-- Settles O45: `modinv` has no result on operands that are not coprime. -/
theorem modinvNotCoprimeIsInvundef : Obligations.ModinvNotCoprimeIsInvundef := fun s rd ra rc hc hg =>
  ⟨_, exec_modinv_of_no_inverse rd ra rc hc ((modinv_eq_none_iff _ _).2 hg), completeError_completesInError .invUndef s⟩

/-- Settles O53: the identities hold along the recursion; on the listed operands it ends at once. -/
theorem egcdMeetsItsContract : Obligations.EgcdMeetsItsContract :=
  ⟨fun a b => ⟨egcd_bezout a b, egcd_g a b⟩, egcd_zero 0, fun a ha => egcd_of_dvd ha (dvd_zero a),
    fun b _ => egcd_zero b, fun a ha => egcd_of_dvd ha (dvd_refl a)⟩

/-- Settles O54: the fuel is always enough, so no call sees it. -/
theorem egcdFollowsItsRecursion : Obligations.EgcdFollowsItsRecursion :=
  ⟨egcd_zero, fun _ b ha => egcd_succ ha b⟩

/-- Settles O55: the coefficients are those of the operands divided by g, and each is bounded by the other operand. -/
theorem egcdCoefficientsFit : Obligations.EgcdCoefficientsFit := by
  refine ⟨fun a b hg => ?_, fun a b => ?_, fun p a b hp ha hb => (egcd_lt_two_pow (Params.opw_pos hp) ha hb).2⟩
  · rw [egcd_g] at hg ⊢
    exact egcd_natAbs_le_div_gcd hg
  · obtain ⟨hx, hy⟩ := egcd_natAbs_le a b
    exact ⟨hx.trans (max_le_max_right 1 (le_max_right a b)), hy.trans (max_le_max_right 1 (le_max_left a b))⟩

/-- Settles O56: every inverse of `a`, and every Bézout coefficient is one, leaves the same residue. -/
theorem modinvIsTheInverse : Obligations.ModinvIsTheInverse := by
  intro a n hn
  refine ⟨modinv_eq_none_iff a n, fun r h => ?_⟩
  obtain ⟨hlt, hmod⟩ := modinv_eq_some hn h
  have hint : (a : Int) * r ≡ 1 [ZMOD n] := by exact_mod_cast hmod
  refine ⟨hlt, hmod, fun q hq hqmod => ?unique, fun h2 => ?residue, fun x y hxy => ?bezout⟩
  case unique =>
    have hqr : (q : Int) = r :=
      (eq_emod_of_mul_modEq_one hq hqmod hint).trans (eq_emod_of_mul_modEq_one hlt hmod hint).symm
    exact Int.natCast_inj.1 hqr
  case residue => exact Nat.mod_eq_of_modEq hmod h2
  case bezout =>
    refine eq_emod_of_mul_modEq_one hlt hmod ?_
    rw [← hxy]
    simp [Int.ModEq]

end

section
/-! SUPPORT. The command's life and what cannot stop the block (60_exceptions.md R211 to R221): acceptance at an idle
CMD write, the Engine's turn on the record in flight, an issued word, and the steps that have no next state. -/

namespace Sys2Proof.Machine

open Sys2Proof

/-! Acceptance (60_exceptions.md R211 to R213). -/

theorem step_write_cmd_idle {s : State} {w : Word} {rest : List Input} (hb : s.busy = false)
    (hin : s.inputs = .write (s.par.wordAccess 0x008) w :: rest) :
    step s = .next (accept w { s with inputs := rest }) := by
  rw [step_write hin (by decide) (by decide), busWriteWord_cmd, busy_inputs, hb, if_neg Bool.false_ne_true]

theorem accept_of_legal {w : Word} {i : Instr} (h : decode w = .legal i) (s : State) :
    accept w s = acceptLegal w s := by rw [accept, h]

theorem accept_of_illegal {w : Word} {why : Illegal} (h : decode w = .illegal why) (s : State) :
    accept w s = acceptIllegal w s := by rw [accept, h]

/-- Acceptance asks for a witness exactly where PRIMETEST needs one (40_primality.md R132). -/
theorem wreq_acceptedJob_iff (w : Word) (s : State) :
    (acceptedJob w s).wreq = true ↔
      (acceptedJob w s).opc = 2 ∧ primeTrivial (acceptedJob w s).a = none ∧ (acceptedJob w s).imm ≠ 0 := by
  rw [← needsWitness_iff]
  show (fieldOpc w == 2 && _) = true ↔ _
  rw [Bool.and_eq_true, beq_iff_eq]
  rfl

/-! The Engine's turn (60_exceptions.md R214). -/

theorem legal_of_instr?_some {d : Decoded} {i : Instr} (h : d.instr? = some i) : d = .legal i := by
  cases d with
  | legal j => rw [Option.some.inj h]
  | illegal why => cases h

theorem State.RecordLegal.command_of_decode {s : State} {i : Instr} (h : s.RecordLegal) (hb : s.busy = true)
    (hd : decode s.job.word = .legal i) : s.job.command? = some i := by
  obtain ⟨-, hword, -⟩ := h hb
  rw [← hword, hd]
  rfl

theorem engineStep_next {s : State} (h : s.RecordLegal) : ∃ t, engineStep s = .next t := by
  cases hb : s.busy with
  | false => exact ⟨s, if_neg (by rw [hb]; exact Bool.false_ne_true)⟩
  | true =>
    obtain ⟨hsome, -, -⟩ := h hb
    obtain ⟨i, hc⟩ := Option.isSome_iff_exists.1 hsome
    rw [engineStep_run hb hc]
    exact exec_next i s

/-! An issued word (log entry 7). -/

/-- The block with no command in flight, as `issueWord` makes it first. -/
def State.withdrawn (s : State) : State := { s with job.valid := false, job.wreq := false }

theorem issueWord_of_legal {w : Word} {i : Instr} (h : decode w = .legal i) (s : State) :
    issueWord w s = { acceptLegal w s.withdrawn with inputs := .engine :: s.inputs } := by
  rw [issueWord, h]
  rfl

theorem issueWord_of_illegal {w : Word} {why : Illegal} (h : decode w = .illegal why) (s : State) :
    issueWord w s = { s.withdrawn with inputs := .write s.par.cmdAccess w :: s.inputs } := by
  rw [issueWord, h]
  rfl

theorem step_issueWord_of_legal {w : Word} {i : Instr} (h : decode w = .legal i) (s : State) :
    step (issueWord w s) = exec i { acceptLegal w s.withdrawn with inputs := s.inputs } := by
  rw [issueWord_of_legal h, step_cons rfl]
  exact engineStep_run rfl (command_acceptedJob s.withdrawn h)

theorem step_issueWord_of_illegal {w : Word} {why : Illegal} (h : decode w = .illegal why) (s : State) :
    step (issueWord w s) = .next (acceptIllegal w s.withdrawn) := by
  rw [issueWord_of_illegal h, step_write_cmd_idle rfl rfl, accept_of_illegal h]
  rfl

/-! The steps with no next state (20_memory.md R70; 93_implementation_defined.md U16). -/

theorem perform_access_next_or_refused {e : Input} {acc : Access} (he : e = .read acc ∨ ∃ w, e = .write acc w)
    (s : State) :
    (∃ t, perform e s = .next t) ∨
      (perform e s = .refused .outsideRegion ∧ ¬(s.par.base ≤ acc.addr ∧ acc.addr < s.par.base + 0x5000)) := by
  cases hoff : s.par.offset? acc.addr with
  | some off =>
    left
    obtain rfl | ⟨w, rfl⟩ := he
    · exact ⟨busRead off acc.lanes s, by rw [perform, hoff]⟩
    · exact ⟨busWrite off acc.lanes w s, by rw [perform, hoff]⟩
  | none =>
    refine .inr ⟨?_, offset?_eq_none hoff⟩
    obtain rfl | ⟨w, rfl⟩ := he <;> rw [perform, hoff]

theorem answerStep_next_or_refused {s : State} (h : s.RecordLegal) (w : Nat) :
    (∃ t, answerStep w s = .next t) ∨
      (answerStep w s = .refused .witnessOutOfRange ∧ ¬(2 ≤ w ∧ w ≤ s.job.a - 2)) := by
  unfold answerStep State.witnessRequest
  by_cases hr : s.job.wreq = true
  · rw [if_pos hr]
    simp only
    split
    · exact .inl (engineStep_next (s := { s with witness := some w }) h)
    · exact .inr ⟨rfl, ‹_›⟩
  · rw [if_neg hr]
    exact .inl ⟨s, rfl⟩

end Sys2Proof.Machine

open Sys2Proof Sys2Proof.Machine

/-- Settles O10: agent by agent; the Engine's turn has a next state because the record in flight holds a command. -/
theorem onlyOutsideInputsAreRefused : Obligations.OnlyOutsideInputsAreRefused := by
  intro s hinv
  cases hin : s.inputs with
  | nil =>
    rw [step_nil hin]
    exact .inl (engineStep_next hinv.record)
  | cons e rest =>
    rw [step_cons hin]
    cases e with
    | read acc =>
      obtain hnext | ⟨hrefused, hout⟩ :=
        perform_access_next_or_refused (acc := acc) (.inl rfl) { s with inputs := rest }
      · exact .inl hnext
      · exact .inr (.inl ⟨hrefused, acc, rest, .inl rfl, hout⟩)
    | write acc w =>
      obtain hnext | ⟨hrefused, hout⟩ :=
        perform_access_next_or_refused (acc := acc) (.inr ⟨w, rfl⟩) { s with inputs := rest }
      · exact .inl hnext
      · exact .inr (.inl ⟨hrefused, acc, rest, .inr ⟨w, rfl⟩, hout⟩)
    | engine => exact .inl (engineStep_next (hinv.inputs rest).record)
    | answer w =>
      obtain hnext | ⟨hrefused, hout⟩ := answerStep_next_or_refused (hinv.inputs rest).record w
      · exact .inl hnext
      · exact .inr (.inr ⟨hrefused, w, rest, rfl, hout⟩)
    | staleAnswer w => exact .inl ⟨_, rfl⟩
    | reset => exact .inl ⟨_, rfl⟩

/-- Settles O19: the next state is `acceptLegal`'s, whose record holds the word's own fields. -/
theorem cmdWriteAcceptsLegalWord : Obligations.CmdWriteAcceptsLegalWord := by
  intro s w i rest hq hd hin
  have hstep := step_write_cmd_idle ((State.quiescent_iff s).1 hq) hin
  rw [accept_of_legal hd] at hstep
  exact ⟨_, hstep, rfl, rfl, command_acceptedJob _ hd, rfl, rfl, rfl, rfl, rfl, rfl, rfl,
    sourceValue_of_fullyWritten _, sourceValue_of_fullyWritten _, sourceValue_of_fullyWritten _, rfl,
    wreq_acceptedJob_iff w _, rfl, rfl, rfl, rfl, rfl, rfl⟩

/-- Settles O46: of what an Engine step can do, only a completion in error sets ERR. -/
theorem errorsArePrecise : Obligations.ErrorsArePrecise := by
  intro i s t h h0 h1
  cases exec_cases h with
  | verdict v rd d hi => cases h1
  | residue rd q hi hc hq => cases h1
  | bezout rd ra rb rc ry hi => cases h1
  | error code hc => exact ⟨code, hc, completeError_completesInError code s⟩
  | waits rd ra k hi ht hk ha => exact absurd (h0.symm.trans h1) Bool.false_ne_true
  | nextRound rd ra k w hi ha hm hd => exact absurd (h0.symm.trans h1) Bool.false_ne_true

/-- Settles O12: the record holds the command that its word decodes to, and each of the three turns runs it. -/
theorem engineTurnRunsCommandInFlight : Obligations.EngineTurnRunsCommandInFlight := by
  intro s i hrec hb hd
  have hc := hrec.command_of_decode hb hd
  refine ⟨fun hin => ?_, fun rest hin => ?_, fun w rest hin hr h2 hle => step_answer hb hr hc h2 hle hin⟩
  · rw [step_nil hin, engineStep_run hb hc]
  · rw [step_cons hin]
    exact engineStep_run (s := { s with inputs := rest }) hb hc

/-- Settles O13: a legal word is placed as its record with the Engine to move, an ILLEGAL one as the next CMD write. -/
theorem fetchedWordRuns : Obligations.FetchedWordRuns := by
  intro s nbits w
  refine ⟨fun i hi => step_issueWord_of_legal (legal_of_instr?_some hi) s, fun hnone => ?_⟩
  obtain ⟨why, hd⟩ := illegal_of_instr?_none hnone
  exact ⟨_, step_issueWord_of_illegal hd s, rfl, rfl, rfl, rfl, rfl, rfl⟩

/-- Settles O20: `acceptIllegal` changes STATUS and DONE alone. -/
theorem cmdWriteRecordsIllegalWord : Obligations.CmdWriteRecordsIllegalWord := by
  intro s w why rest hq hd hin
  rw [step_write_cmd_idle ((State.quiescent_iff s).1 hq) hin, accept_of_illegal hd]
  rfl

end

section
/-! SUPPORT. Reset, and the Engine's turn with nothing queued (70_reset_and_hazards.md R250, R251, R263): what the block
reads as after reset, what reset does to the V registers, the discarded answers, and the completion of every command
that waits for no witness. -/

namespace Sys2Proof.Machine

open Sys2Proof

/-! The control registers after reset (R250). -/

theorem flagPair_false : flagPair false false = 0 :=
  BitVec.eq_of_toNat_eq (flagPair_toNat false false)

theorem statusWord_resetWith (p : Params) : (State.resetWith p).statusWord = 0 :=
  BitVec.eq_of_toNat_eq (statusWord_toNat (State.resetWith p))

theorem eventsWord_resetWith (p : Params) : (State.resetWith p).eventsWord = 0 := flagPair_false

theorem irqenWord_resetWith (p : Params) : (State.resetWith p).irqenWord = 0 := flagPair_false

/-! The V registers after the reset input (R251). -/

theorem wordWritten_resetInput (s : State) (k : Reg) (i : Nat) : (resetInput s).wordWritten k i = false := by
  simp [State.wordWritten]

/-- OPW is not 0, so a register with no word written since reset is not known. -/
theorem fullyWritten_resetInput {s : State} (hp : s.par.Ok) (k : Reg) : (resetInput s).fullyWritten k = false := by
  obtain ⟨htwo, -, -⟩ := hp
  refine Bool.eq_false_iff.2 fun hknown => ?_
  have hwritten := ((resetInput s).fullyWritten_iff k).1 hknown 0 (by rw [resetInput_par]; omega)
  rw [wordWritten_resetInput] at hwritten
  cases hwritten

/-! Answers that nothing asked for (R250; 40_primality.md R133). -/

theorem answerStep_of_no_request {s : State} (w : Nat) (h : s.witnessRequest = none) : answerStep w s = .next s := by
  rw [answerStep, h]

/-! The Engine's turn while no witness is asked for (R263; 60_exceptions.md R214). -/

theorem answered_of_no_request {s : State} (hr : s.job.wreq = false) : s.answered = none := by
  rw [State.answered, hr, if_neg Bool.false_ne_true]

/-- A PRIMETEST in flight that asks for no witness needs none (40_primality.md R132). -/
theorem State.Inv.needsWitness_of_no_request {s : State} {rd ra : Reg} {k : BitVec 8} (h : s.Inv) (hb : s.busy = true)
    (hr : s.job.wreq = false) (hc : s.job.command? = some (.primetest rd ra k)) : needsWitness s.job.a k = false := by
  obtain ⟨-, hprimetest, -, -⟩ := opc_of_command hc
  obtain ⟨hopc, rfl⟩ := hprimetest rd ra k rfl
  obtain ⟨hexact, -⟩ := h.request
  simpa [hr, hb, hopc] using hexact

/-- Of what the Engine can do with the command in flight, the wait and the round that is not the last both need a witness
request; every other case ends the command. -/
theorem State.Inv.exec_completes {s t : State} {i : Instr} (h : s.Inv) (hb : s.busy = true) (hr : s.job.wreq = false)
    (hc : s.job.command? = some i) (he : exec i s = .next t) : t.busy = false ∧ t.events.done = true := by
  cases exec_cases he with
  | verdict v rd d hi => exact ⟨rfl, rfl⟩
  | residue rd q hi hc0 hq => exact ⟨rfl, rfl⟩
  | bezout rd ra rb rc ry hi => exact ⟨rfl, rfl⟩
  | error code hcode => exact ⟨rfl, rfl⟩
  | waits rd ra k hi ht hk ha =>
    have hneeds := (needsWitness_iff s.job.a k).2 ⟨ht, hk⟩
    rw [h.needsWitness_of_no_request hb hr (hi ▸ hc)] at hneeds
    cases hneeds
  | nextRound rd ra k w hi ha hm hd =>
    rw [answered_of_no_request hr] at ha
    cases ha

end Sys2Proof.Machine

open Sys2Proof Sys2Proof.Machine

/-- Settles O14: the record in flight holds a command, and its Engine step ends it because no witness is asked for. -/
theorem engineCompletesWhenNothingIsQueued : Obligations.EngineCompletesWhenNothingIsQueued := by
  intro s hinv hin hb hr
  obtain ⟨hsome, -, -⟩ := hinv.record hb
  obtain ⟨i, hc⟩ := Option.isSome_iff_exists.1 hsome
  obtain ⟨t, he⟩ := exec_next i s
  obtain ⟨hidle, hdone⟩ := hinv.exec_completes hb hr hc he
  obtain ⟨-, -, -, hlast, -⟩ := exec_frame he
  exact ⟨t, by rw [step_nil hin, engineStep_run hb hc, he], (State.quiescent_iff t).2 hidle, hdone,
    hlast.trans (hinv.lastop hb)⟩

/-- Settles O6: every field of the three registers is 0 after reset, and S is idle. -/
theorem resetClearsControlState : Obligations.ResetClearsControlState :=
  fun p => ⟨statusWord_resetWith p, eventsWord_resetWith p, irqenWord_resetWith p, rfl, rfl, rfl, rfl⟩

/-- Settles O7: the reset input leaves the control state as reset does (O6), with the queue kept, and no word of a V
register counts as written. -/
theorem resetInputDiscardsCommand : Obligations.ResetInputDiscardsCommand := by
  intro s rest hin
  obtain ⟨hstatus, hevents, hirqen, hirq, hidle, hrequest, hpar⟩ := resetClearsControlState s.par
  exact ⟨resetInput { s with inputs := rest }, step_cons hin, hstatus, hevents, hirqen, hirq, hidle, hrequest, hpar,
    wordWritten_resetInput _, fun hp => fullyWritten_resetInput (s := { s with inputs := rest }) hp, rfl⟩

/-- Settles O57: a stale answer's turn leaves the state, and so does an answer's where no request meets it. -/
theorem lateWitnessIsDiscarded : Obligations.LateWitnessIsDiscarded := by
  intro s w rest
  refine ⟨fun hin => step_cons hin, fun hin hnone => ?_⟩
  rw [step_cons hin]
  exact answerStep_of_no_request (s := { s with inputs := rest }) w hnone

end

section
/-! SUPPORT. The V registers that are not fully written since reset (70_reset_and_hazards.md R251, log entries 1, 2): what
an idle read of one of their words returns, and the words of the number that a command captures from one. -/

namespace Sys2Proof.Machine

open Sys2Proof

theorem step_read_vword_unknown {s : State} {k : Reg} {i : Nat} {rest : List Input}
    (h : s.inputs = .read (s.par.wordAccess (vOffset k i)) :: rest) (hi : i < 256) (hn : i < s.par.opwWords)
    (hb : s.busy = false) (hk : s.fullyWritten k = false) :
    step s = .next { s with inputs := rest, rdata := Config.freeWord s.draws, draws := s.draws + 1 } := by
  rw [step_read h (vOffset_lt k hi) (vOffset_aligned k i), busReadWord_vOffset _ k hi, if_pos hn, readVWord,
    busy_inputs, hb, if_neg Bool.false_ne_true, fullyWritten_inputs, hk, if_neg Bool.false_ne_true]

/-- Word h of an unknown source is the h-th draw of the block set aside from `d` on. -/
theorem wordOf_sourceValue_of_not_fullyWritten {s : State} {k : Reg} (d : Nat) (hk : s.fullyWritten k = false) (h : Nat)
    (hh : h < s.par.opwWords) : wordOf (s.sourceValue k d) h = Config.freeWord (d + h) := by
  rw [sourceValue_of_not_fullyWritten d hk, wordOf_unknownValue _ d hh]

end Sys2Proof.Machine

open Sys2Proof Sys2Proof.Machine

/-- Settles O58: the record is that of acceptance, which captures each source with a block of draws of its own. -/
theorem unwrittenSourceIsCapturedFree : Obligations.UnwrittenSourceIsCapturedFree := by
  intro s w i rest hq hd hin
  have hstep := step_write_cmd_idle ((State.quiescent_iff s).1 hq) hin
  rw [accept_of_legal hd] at hstep
  exact ⟨_, hstep, rfl, wordOf_sourceValue_of_not_fullyWritten _, wordOf_sourceValue_of_not_fullyWritten _,
    wordOf_sourceValue_of_not_fullyWritten _,
    fun hrange => ⟨sourceValue_lt _ (hrange _), sourceValue_lt _ (hrange _), sourceValue_lt _ (hrange _)⟩⟩

/-- Settles O33: an idle read looks at whether the whole register is written, not at the word it names. -/
theorem unwrittenWordReadsFree : Obligations.UnwrittenWordReadsFree := by
  intro s k i rest ⟨_, hle, _⟩ hq hn hk hin
  exact step_read_vword_unknown hin (hn.trans_le hle) hn ((State.quiescent_iff s).1 hq) hk

end
